-- ==== Sys2Proof/Word.lean ====
section
/-! DEFINITION. The word, byte and register-number types of the core. -/

namespace Sys2Proof

/-- A register value, an address, an instruction word or an immediate after extension: 32 bits
(spec R6, R11). -/
abbrev Word := BitVec 32

/-- One unit of addressing (spec R40). -/
abbrev Byte := BitVec 8

/-- The number of a general register, 0 to 31 (spec R21, R72). -/
abbrev RegIdx := BitVec 5

/-- The number of 32-bit addresses, 2^32 (spec R40). -/
abbrev addressSpaceSize : Nat := 4294967296

end Sys2Proof
end

