-- ==== Sys2Proof/Config.lean ====
section
/-! DEFINITION. What is fixed for a run and is not state: the seven opcode values and the parameters
REGIONS, ENTRY_POINT and STACK_TOP of spec R7. -/

namespace Sys2Proof

/-! ## The seven opcode values (spec R84) -/

abbrev Config.opcLoad   : BitVec 7 := 0b0000011#7
abbrev Config.opcOpImm  : BitVec 7 := 0b0010011#7
abbrev Config.opcStore  : BitVec 7 := 0b0100011#7
abbrev Config.opcOp     : BitVec 7 := 0b0110011#7
abbrev Config.opcLui    : BitVec 7 := 0b0110111#7
abbrev Config.opcBranch : BitVec 7 := 0b1100011#7
abbrev Config.opcJal    : BitVec 7 := 0b1101111#7

/-- One loadable piece of the memory image: a base address and its bytes (spec R7, R41). -/
structure Segment where
  base  : Word
  bytes : List Byte
  deriving DecidableEq, Repr

/-- What the host supplies before reset is released (spec R7, R216). -/
structure Params where
  /-- ENTRY_POINT, not checked at reset (spec R212). -/
  entryPoint : Word
  /-- STACK_TOP, whose only effect is the reset value of `x[2]` (spec R45). -/
  stackTop   : Word
  /-- REGIONS, the memory image (spec R41). -/
  regions    : List Segment
  deriving DecidableEq, Repr

end Sys2Proof
end

