-- ==== Sys2Proof/Syntax.lean ====
section
/-! DEFINITION. The 22 instructions of GYS-RV32 (spec R85), with the operands their handlers read
(spec R83). A bit that the encoding has and the handler ignores (spec R86) is no operand. -/

namespace Sys2Proof

/-- One constructor per row of spec R85, in the table's order. Operands stand in the order in which the
spec lists them for each instruction. -/
inductive Instr where
  /-- LB, spec R121. `imm` is the 12-bit field of `imm_i`. -/
  | lb (rd rs1 : RegIdx) (imm : BitVec 12)
  /-- LH, spec R122. -/
  | lh (rd rs1 : RegIdx) (imm : BitVec 12)
  /-- LW, spec R123. -/
  | lw (rd rs1 : RegIdx) (imm : BitVec 12)
  /-- LBU, spec R124. -/
  | lbu (rd rs1 : RegIdx) (imm : BitVec 12)
  /-- LHU, spec R125. -/
  | lhu (rd rs1 : RegIdx) (imm : BitVec 12)
  /-- SB, spec R131. `imm` is the 12-bit field of `imm_s`. -/
  | sb (rs1 rs2 : RegIdx) (imm : BitVec 12)
  /-- SH, spec R132. -/
  | sh (rs1 rs2 : RegIdx) (imm : BitVec 12)
  /-- SW, spec R133. -/
  | sw (rs1 rs2 : RegIdx) (imm : BitVec 12)
  /-- ADDI, spec R141. -/
  | addi (rd rs1 : RegIdx) (imm : BitVec 12)
  /-- SLLI, spec R142. `inst[31:25]` is ignored and no operand. -/
  | slli (rd rs1 : RegIdx) (shamt : BitVec 5)
  /-- SUBI, spec R143. -/
  | subi (rd rs1 : RegIdx) (imm : BitVec 12)
  /-- ADD, spec R151. -/
  | add (rd rs1 rs2 : RegIdx)
  /-- MUL, spec R152. -/
  | mul (rd rs1 rs2 : RegIdx)
  /-- SUB, spec R153. funct7 is ignored and no operand. -/
  | sub (rd rs1 rs2 : RegIdx)
  /-- LUI, spec R160. `imm` is `inst[31:12]`. -/
  | lui (rd : RegIdx) (imm : BitVec 20)
  /-- JAL, spec R166. `imm` is the assembled 21-bit `imm_j`, bit 0 always 0. The `rd` field is ignored
  and no operand. -/
  | jal (imm : BitVec 21)
  /-- BEQ, spec R171. `imm` is the assembled 13-bit `imm_b`, bit 0 always 0. -/
  | beq (rs1 rs2 : RegIdx) (imm : BitVec 13)
  /-- BNE, spec R172. -/
  | bne (rs1 rs2 : RegIdx) (imm : BitVec 13)
  /-- BLT, spec R173. -/
  | blt (rs1 rs2 : RegIdx) (imm : BitVec 13)
  /-- BGE, spec R174. -/
  | bge (rs1 rs2 : RegIdx) (imm : BitVec 13)
  /-- BLTU, spec R175. -/
  | bltu (rs1 rs2 : RegIdx) (imm : BitVec 13)
  /-- BGEU, spec R176. -/
  | bgeu (rs1 rs2 : RegIdx) (imm : BitVec 13)
  deriving DecidableEq, Repr

end Sys2Proof
end

