-- ==== Sys2Proof/WellFormed.lean ====
section
/-! DEFINITION. When an instruction term stands for an instruction word. The operand types leave one
thing to check: bit 0 of a branch or jump offset is always 0 (spec R79, R81). -/

namespace Sys2Proof

/-- Whether `i` is the reading of some instruction word. -/
def Instr.wf : Instr → Bool
  | .lb _ _ _   => true
  | .lh _ _ _   => true
  | .lw _ _ _   => true
  | .lbu _ _ _  => true
  | .lhu _ _ _  => true
  | .sb _ _ _   => true
  | .sh _ _ _   => true
  | .sw _ _ _   => true
  | .addi _ _ _ => true
  | .slli _ _ _ => true
  | .subi _ _ _ => true
  | .add _ _ _  => true
  | .mul _ _ _  => true
  | .sub _ _ _  => true
  | .lui _ _    => true
  | .jal imm    => !imm.getLsbD 0
  | .beq _ _ imm  => !imm.getLsbD 0
  | .bne _ _ imm  => !imm.getLsbD 0
  | .blt _ _ imm  => !imm.getLsbD 0
  | .bge _ _ imm  => !imm.getLsbD 0
  | .bltu _ _ imm => !imm.getLsbD 0
  | .bgeu _ _ imm => !imm.getLsbD 0

end Sys2Proof
end

