-- ==== Sys2Proof/Decode.lean ====
section
/-! DEFINITION. Decoding of instruction words and bytes, the encoder, the opcode table and the assembler
spelling (spec 30_encoding.md). -/

namespace Sys2Proof

/-! ## Fields and immediates of a word (spec R9, R71 to R82) -/

/-- `field(w, lsb, len)`: the `len` bits of `w` from bit `lsb` on (spec R9). -/
def field (w : Word) (lsb len : Nat) : BitVec len := w.extractLsb' lsb len

/-- Spec R71. -/
def opcodeOf (w : Word) : BitVec 7 := field w 0 7
/-- Spec R72. -/
def rdOf (w : Word) : RegIdx := field w 7 5
/-- Spec R73. -/
def funct3Of (w : Word) : BitVec 3 := field w 12 3
/-- Spec R74. -/
def rs1Of (w : Word) : RegIdx := field w 15 5
/-- Spec R75. -/
def rs2Of (w : Word) : RegIdx := field w 20 5
/-- Spec R76. -/
def funct7Of (w : Word) : BitVec 7 := field w 25 7
/-- The field that `imm_i` extends, `inst[31:20]` (spec R77). -/
def immIOf (w : Word) : BitVec 12 := field w 20 12
/-- The shift amount of SLLI, `imm_i & 0x1F = inst[24:20]` (spec R142). -/
def shamtOf (w : Word) : BitVec 5 := field w 20 5
/-- The field that `imm_s` extends, `inst[31:25] || inst[11:7]` (spec R78). -/
def immSOf (w : Word) : BitVec 12 := field w 25 7 ++ field w 7 5
/-- `imm_b = inst[31] || inst[7] || inst[30:25] || inst[11:8] || 0` (spec R79). -/
def immBOf (w : Word) : BitVec 13 :=
  field w 31 1 ++ field w 7 1 ++ field w 25 6 ++ field w 8 4 ++ 0#1
/-- The upper 20 bits of `imm_u`, `inst[31:12]` (spec R80). -/
def immUOf (w : Word) : BitVec 20 := field w 12 20
/-- `imm_j = inst[31] || inst[19:12] || inst[20] || inst[30:21] || 0` (spec R81). -/
def immJOf (w : Word) : BitVec 21 :=
  field w 31 1 ++ field w 12 8 ++ field w 20 1 ++ field w 21 10 ++ 0#1

/-! ## The decoder -/

/-- Why a word is no instruction. -/
inductive Reject where
  /-- The opcode has no handler (spec R87, R104). -/
  | unknownOpcode
  /-- The opcode has a handler and the function codes match no row (spec R88). -/
  | unimplementedOperation
  deriving DecidableEq, Repr

/-- The LOAD class (spec R120, R126). -/
def decodeLoad (w : Word) : Except Reject Instr :=
  match funct3Of w with
  | 0b000#3 => .ok (.lb (rdOf w) (rs1Of w) (immIOf w))
  | 0b001#3 => .ok (.lh (rdOf w) (rs1Of w) (immIOf w))
  | 0b010#3 => .ok (.lw (rdOf w) (rs1Of w) (immIOf w))
  | 0b100#3 => .ok (.lbu (rdOf w) (rs1Of w) (immIOf w))
  | 0b101#3 => .ok (.lhu (rdOf w) (rs1Of w) (immIOf w))
  | _ => .error .unimplementedOperation

/-- The STORE class (spec R130, R134). -/
def decodeStore (w : Word) : Except Reject Instr :=
  match funct3Of w with
  | 0b000#3 => .ok (.sb (rs1Of w) (rs2Of w) (immSOf w))
  | 0b001#3 => .ok (.sh (rs1Of w) (rs2Of w) (immSOf w))
  | 0b010#3 => .ok (.sw (rs1Of w) (rs2Of w) (immSOf w))
  | _ => .error .unimplementedOperation

/-- The ALU-immediate class (spec R140, R144). -/
def decodeOpImm (w : Word) : Except Reject Instr :=
  match funct3Of w with
  | 0b000#3 => .ok (.addi (rdOf w) (rs1Of w) (immIOf w))
  | 0b001#3 => .ok (.slli (rdOf w) (rs1Of w) (shamtOf w))
  | 0b010#3 => .ok (.subi (rdOf w) (rs1Of w) (immIOf w))
  | _ => .error .unimplementedOperation

/-- The ALU-register class: funct7 is looked at only when funct3 is `000` (spec R150, R154). -/
def decodeOp (w : Word) : Except Reject Instr :=
  match funct3Of w with
  | 0b000#3 =>
    match funct7Of w with
    | 0b0000000#7 => .ok (.add (rdOf w) (rs1Of w) (rs2Of w))
    | 0b0000001#7 => .ok (.mul (rdOf w) (rs1Of w) (rs2Of w))
    | _ => .error .unimplementedOperation
  | 0b010#3 => .ok (.sub (rdOf w) (rs1Of w) (rs2Of w))
  | _ => .error .unimplementedOperation

/-- The conditional-branch class (spec R170, R177). -/
def decodeBranch (w : Word) : Except Reject Instr :=
  match funct3Of w with
  | 0b000#3 => .ok (.beq (rs1Of w) (rs2Of w) (immBOf w))
  | 0b001#3 => .ok (.bne (rs1Of w) (rs2Of w) (immBOf w))
  | 0b100#3 => .ok (.blt (rs1Of w) (rs2Of w) (immBOf w))
  | 0b101#3 => .ok (.bge (rs1Of w) (rs2Of w) (immBOf w))
  | 0b110#3 => .ok (.bltu (rs1Of w) (rs2Of w) (immBOf w))
  | 0b111#3 => .ok (.bgeu (rs1Of w) (rs2Of w) (immBOf w))
  | _ => .error .unimplementedOperation

/-- The decoder of one word: dispatch on the opcode alone, then on the function codes (spec R103, R104,
R108). -/
def decode (w : Word) : Except Reject Instr :=
  if opcodeOf w = Config.opcLoad then decodeLoad w
  else if opcodeOf w = Config.opcStore then decodeStore w
  else if opcodeOf w = Config.opcOpImm then decodeOpImm w
  else if opcodeOf w = Config.opcOp then decodeOp w
  else if opcodeOf w = Config.opcLui then .ok (.lui (rdOf w) (immUOf w))
  else if opcodeOf w = Config.opcJal then .ok (.jal (immJOf w))
  else if opcodeOf w = Config.opcBranch then decodeBranch w
  else .error .unknownOpcode

/-- Why a list of bytes does not begin with an instruction. -/
inductive ByteReject where
  /-- Fewer than four bytes: every instruction is one 32-bit word (spec R70). -/
  | truncated
  /-- The first word is no instruction. -/
  | word (r : Reject)
  deriving DecidableEq, Repr

/-- The word that four bytes in address order hold: little-endian (spec R47, R55). -/
def wordOfBytes (b0 b1 b2 b3 : Byte) : Word := b3 ++ b2 ++ b1 ++ b0

/-- The decoder on any bytes in address order: the first instruction and the bytes after it. -/
def decodeBytes : List Byte → Except ByteReject (Instr × List Byte)
  | b0 :: b1 :: b2 :: b3 :: rest =>
    match decode (wordOfBytes b0 b1 b2 b3) with
    | .ok i => .ok (i, rest)
    | .error r => .error (.word r)
  | _ => .error .truncated

/-! ## The encoder -/

/-- R format (spec R70). -/
def encodeR (f7 : BitVec 7) (rs2 rs1 : RegIdx) (f3 : BitVec 3) (rd : RegIdx) (op : BitVec 7) : Word :=
  f7 ++ rs2 ++ rs1 ++ f3 ++ rd ++ op
/-- I format. -/
def encodeI (imm : BitVec 12) (rs1 : RegIdx) (f3 : BitVec 3) (rd : RegIdx) (op : BitVec 7) : Word :=
  imm ++ rs1 ++ f3 ++ rd ++ op
/-- S format. -/
def encodeS (imm : BitVec 12) (rs2 rs1 : RegIdx) (f3 : BitVec 3) (op : BitVec 7) : Word :=
  imm.extractLsb' 5 7 ++ rs2 ++ rs1 ++ f3 ++ imm.extractLsb' 0 5 ++ op
/-- B format: bit 0 of the offset has no place in the word. -/
def encodeB (imm : BitVec 13) (rs2 rs1 : RegIdx) (f3 : BitVec 3) (op : BitVec 7) : Word :=
  imm.extractLsb' 12 1 ++ imm.extractLsb' 5 6 ++ rs2 ++ rs1 ++ f3 ++ imm.extractLsb' 1 4
    ++ imm.extractLsb' 11 1 ++ op
/-- U format. -/
def encodeU (imm : BitVec 20) (rd : RegIdx) (op : BitVec 7) : Word :=
  imm ++ rd ++ op
/-- J format: bit 0 of the offset has no place in the word. -/
def encodeJ (imm : BitVec 21) (rd : RegIdx) (op : BitVec 7) : Word :=
  imm.extractLsb' 20 1 ++ imm.extractLsb' 1 10 ++ imm.extractLsb' 11 1 ++ imm.extractLsb' 12 8 ++ rd ++ op

/-- The word of an instruction, from the rows of spec R85. The ignored bits of SLLI and SUB are written as
0 as spec R90 assembles them. DESIGN CHOICE (log entry 10): the ignored `rd` of JAL is written as 0 too. -/
def encode : Instr → Word
  | .lb rd rs1 imm  => encodeI imm rs1 0b000#3 rd Config.opcLoad
  | .lh rd rs1 imm  => encodeI imm rs1 0b001#3 rd Config.opcLoad
  | .lw rd rs1 imm  => encodeI imm rs1 0b010#3 rd Config.opcLoad
  | .lbu rd rs1 imm => encodeI imm rs1 0b100#3 rd Config.opcLoad
  | .lhu rd rs1 imm => encodeI imm rs1 0b101#3 rd Config.opcLoad
  | .sb rs1 rs2 imm => encodeS imm rs2 rs1 0b000#3 Config.opcStore
  | .sh rs1 rs2 imm => encodeS imm rs2 rs1 0b001#3 Config.opcStore
  | .sw rs1 rs2 imm => encodeS imm rs2 rs1 0b010#3 Config.opcStore
  | .addi rd rs1 imm => encodeI imm rs1 0b000#3 rd Config.opcOpImm
  | .slli rd rs1 shamt => encodeR 0b0000000#7 shamt rs1 0b001#3 rd Config.opcOpImm
  | .subi rd rs1 imm => encodeI imm rs1 0b010#3 rd Config.opcOpImm
  | .add rd rs1 rs2 => encodeR 0b0000000#7 rs2 rs1 0b000#3 rd Config.opcOp
  | .mul rd rs1 rs2 => encodeR 0b0000001#7 rs2 rs1 0b000#3 rd Config.opcOp
  | .sub rd rs1 rs2 => encodeR 0b0000000#7 rs2 rs1 0b010#3 rd Config.opcOp
  | .lui rd imm => encodeU imm rd Config.opcLui
  | .jal imm => encodeJ imm 0b00000#5 Config.opcJal
  | .beq rs1 rs2 imm  => encodeB imm rs2 rs1 0b000#3 Config.opcBranch
  | .bne rs1 rs2 imm  => encodeB imm rs2 rs1 0b001#3 Config.opcBranch
  | .blt rs1 rs2 imm  => encodeB imm rs2 rs1 0b100#3 Config.opcBranch
  | .bge rs1 rs2 imm  => encodeB imm rs2 rs1 0b101#3 Config.opcBranch
  | .bltu rs1 rs2 imm => encodeB imm rs2 rs1 0b110#3 Config.opcBranch
  | .bgeu rs1 rs2 imm => encodeB imm rs2 rs1 0b111#3 Config.opcBranch

/-! ## The opcode table (spec R85) -/

/-- One row of the table of spec R85: a word is the row's instruction when `w &&& mask = pattern`. -/
structure OpcodeRow where
  mnemonic : String
  mask     : Word
  pattern  : Word
  deriving DecidableEq, Repr

/-- The row of an instruction, copied from the table. -/
def Instr.row : Instr → OpcodeRow
  | .lb _ _ _   => ⟨"LB", 0x0000707F#32, 0x00000003#32⟩
  | .lh _ _ _   => ⟨"LH", 0x0000707F#32, 0x00001003#32⟩
  | .lw _ _ _   => ⟨"LW", 0x0000707F#32, 0x00002003#32⟩
  | .lbu _ _ _  => ⟨"LBU", 0x0000707F#32, 0x00004003#32⟩
  | .lhu _ _ _  => ⟨"LHU", 0x0000707F#32, 0x00005003#32⟩
  | .sb _ _ _   => ⟨"SB", 0x0000707F#32, 0x00000023#32⟩
  | .sh _ _ _   => ⟨"SH", 0x0000707F#32, 0x00001023#32⟩
  | .sw _ _ _   => ⟨"SW", 0x0000707F#32, 0x00002023#32⟩
  | .addi _ _ _ => ⟨"ADDI", 0x0000707F#32, 0x00000013#32⟩
  | .slli _ _ _ => ⟨"SLLI", 0x0000707F#32, 0x00001013#32⟩
  | .subi _ _ _ => ⟨"SUBI", 0x0000707F#32, 0x00002013#32⟩
  | .add _ _ _  => ⟨"ADD", 0xFE00707F#32, 0x00000033#32⟩
  | .mul _ _ _  => ⟨"MUL", 0xFE00707F#32, 0x02000033#32⟩
  | .sub _ _ _  => ⟨"SUB", 0x0000707F#32, 0x00002033#32⟩
  | .lui _ _    => ⟨"LUI", 0x0000007F#32, 0x00000037#32⟩
  | .jal _      => ⟨"JAL", 0x0000007F#32, 0x0000006F#32⟩
  | .beq _ _ _  => ⟨"BEQ", 0x0000707F#32, 0x00000063#32⟩
  | .bne _ _ _  => ⟨"BNE", 0x0000707F#32, 0x00001063#32⟩
  | .blt _ _ _  => ⟨"BLT", 0x0000707F#32, 0x00004063#32⟩
  | .bge _ _ _  => ⟨"BGE", 0x0000707F#32, 0x00005063#32⟩
  | .bltu _ _ _ => ⟨"BLTU", 0x0000707F#32, 0x00006063#32⟩
  | .bgeu _ _ _ => ⟨"BGEU", 0x0000707F#32, 0x00007063#32⟩

/-- The 22 rows in the table's order. -/
def opcodeTable : List OpcodeRow :=
  [Instr.row (.lb 0 0 0), Instr.row (.lh 0 0 0), Instr.row (.lw 0 0 0), Instr.row (.lbu 0 0 0),
   Instr.row (.lhu 0 0 0), Instr.row (.sb 0 0 0), Instr.row (.sh 0 0 0), Instr.row (.sw 0 0 0)] ++
  [Instr.row (.addi 0 0 0), Instr.row (.slli 0 0 0), Instr.row (.subi 0 0 0), Instr.row (.add 0 0 0),
   Instr.row (.mul 0 0 0), Instr.row (.sub 0 0 0), Instr.row (.lui 0 0), Instr.row (.jal 0)] ++
  [Instr.row (.beq 0 0 0), Instr.row (.bne 0 0 0), Instr.row (.blt 0 0 0), Instr.row (.bge 0 0 0),
   Instr.row (.bltu 0 0 0), Instr.row (.bgeu 0 0 0)]

/-- The bits of an instruction's word that are not ignored: all of them, but for `inst[31:25]` of SLLI and
SUB and `inst[11:7]` of JAL (spec R86). -/
def Instr.careMask : Instr → Word
  | .slli _ _ _ => 0x01FFFFFF#32
  | .sub _ _ _  => 0x01FFFFFF#32
  | .jal _      => 0xFFFFF07F#32
  | .lb _ _ _ | .lh _ _ _ | .lw _ _ _ | .lbu _ _ _ | .lhu _ _ _ | .sb _ _ _ | .sh _ _ _ | .sw _ _ _
  | .addi _ _ _ | .subi _ _ _ | .add _ _ _ | .mul _ _ _ | .lui _ _
  | .beq _ _ _ | .bne _ _ _ | .blt _ _ _ | .bge _ _ _ | .bltu _ _ _ | .bgeu _ _ _ => 0xFFFFFFFF#32

/-! ## The host's numbering of an instruction's bits -/

/-- The four bytes of a word in address order (spec R47, R55). -/
def bytesOfWord (w : Word) : List Byte :=
  [w.extractLsb' 0 8, w.extractLsb' 8 8, w.extractLsb' 16 8, w.extractLsb' 24 8]

/-- The instruction that the decoder reads from a word numbered as spec/opcode_table.json numbers its
bits. No instruction is longer than 32 bits. -/
def decodeTableWord (nbits w : Nat) : Option Instr :=
  if nbits ≤ 32 then
    match decodeBytes (bytesOfWord (BitVec.ofNat 32 (w % 2 ^ nbits))) with
    | .ok (i, _) => some i
    | .error _ => none
  else none

/-! ## Assembler spelling (spec R90) -/

/-- `x0` to `x31`. -/
def regName (r : RegIdx) : String := "x" ++ toString r.toNat

/-- `rd, rs1, ` and the like. -/
def operands (l : List String) : String := ", ".intercalate l

/-- `imm(rs1)`. -/
def baseDisp (rs1 : RegIdx) (imm : BitVec 12) : String :=
  toString imm.toInt ++ "(" ++ regName rs1 ++ ")"

/-- The line that assembles to `encode i` (spec R90). -/
def Instr.asm : Instr → String
  | .lb rd rs1 imm  => "lb " ++ operands [regName rd, baseDisp rs1 imm]
  | .lh rd rs1 imm  => "lh " ++ operands [regName rd, baseDisp rs1 imm]
  | .lw rd rs1 imm  => "lw " ++ operands [regName rd, baseDisp rs1 imm]
  | .lbu rd rs1 imm => "lbu " ++ operands [regName rd, baseDisp rs1 imm]
  | .lhu rd rs1 imm => "lhu " ++ operands [regName rd, baseDisp rs1 imm]
  | .sb rs1 rs2 imm => "sb " ++ operands [regName rs2, baseDisp rs1 imm]
  | .sh rs1 rs2 imm => "sh " ++ operands [regName rs2, baseDisp rs1 imm]
  | .sw rs1 rs2 imm => "sw " ++ operands [regName rs2, baseDisp rs1 imm]
  | .addi rd rs1 imm => "addi " ++ operands [regName rd, regName rs1, toString imm.toInt]
  | .slli rd rs1 shamt => "slli " ++ operands [regName rd, regName rs1, toString shamt.toNat]
  | .subi rd rs1 imm => "subi " ++ operands [regName rd, regName rs1, toString imm.toInt]
  | .add rd rs1 rs2 => "add " ++ operands [regName rd, regName rs1, regName rs2]
  | .mul rd rs1 rs2 => "mul " ++ operands [regName rd, regName rs1, regName rs2]
  | .sub rd rs1 rs2 => "sub " ++ operands [regName rd, regName rs1, regName rs2]
  | .lui rd imm => "lui " ++ operands [regName rd, toString imm.toNat]
  | .jal imm => "jal " ++ operands [regName 0, toString imm.toInt]
  | .beq rs1 rs2 imm  => "beq " ++ operands [regName rs1, regName rs2, toString imm.toInt]
  | .bne rs1 rs2 imm  => "bne " ++ operands [regName rs1, regName rs2, toString imm.toInt]
  | .blt rs1 rs2 imm  => "blt " ++ operands [regName rs1, regName rs2, toString imm.toInt]
  | .bge rs1 rs2 imm  => "bge " ++ operands [regName rs1, regName rs2, toString imm.toInt]
  | .bltu rs1 rs2 imm => "bltu " ++ operands [regName rs1, regName rs2, toString imm.toInt]
  | .bgeu rs1 rs2 imm => "bgeu " ++ operands [regName rs1, regName rs2, toString imm.toInt]

end Sys2Proof
end

