-- ==== Sys2Proof/Machine/State.lean ====
section
/-! DEFINITION. The whole state of the core (spec R20), the reasons a step can stop, and the state right
after reset (spec R32). -/

namespace Sys2Proof.Machine

open Sys2Proof

/-- The four execution-time fault kinds of spec R180. A fault is a state of this machine: it sets `status`
and the fault record (spec R186), so every one of them is recorded in `State.fault` of a next state and none is
answered as `Host.Outcome.fault` (log entry 6). Safe: each is the fault that the spec names. -/
inductive Fault where
  /-- Raised by the fetch, LH, LHU, LW, SH and SW on an address that is no multiple of the width (spec R181).
  Safe. -/
  | unalignedAccess
  /-- Raised by the fetch, every load and every store whose bytes are not all inside the one region that
  holds the first of them (spec R182). Safe. -/
  | outOfRangeAccess
  /-- Raised by the dispatch of a word whose opcode has no handler (spec R183). Safe. -/
  | unknownOpcode
  /-- Raised by a handler whose function codes match no instruction (spec R184). Safe. -/
  | unimplementedOperation
  deriving DecidableEq, Repr

/-- Why a step has no meaning. -/
inductive Refusal where
  /-- An instruction without a meaning in this model, by its mnemonic. No arm answers it: all 22 rows of spec
  R85 have a meaning. Safe. -/
  | notModelled (mnemonic : String)
  /-- Raised by a step of a running core whose region table is not well-formed: the spec takes no such
  configuration (R42, U11; log entry 8). Safe. -/
  | illFormedRegions
  deriving DecidableEq, Repr

/-- The run status of spec R26. -/
inductive Status where
  | running
  | halted
  | faulted
  deriving DecidableEq, Repr

/-- The fault record `(kind, pc, inst)` of spec R28 and R185; `inst` is absent for a fault of the fetch. -/
structure FaultRecord where
  kind : Fault
  pc   : Word
  inst : Option Word
  deriving DecidableEq, Repr

/-- The place of one region: it backs the addresses `base` to `base + len - 1` (spec R41). -/
structure Region where
  base : Word
  len  : Nat
  deriving DecidableEq, Repr

/-- The bytes of memory as (address, byte) pairs: addresses strictly rising, and no pair whose byte is what
an unlisted address reads as. -/
abbrev Memory := List Host.Cell

/-- What a backed address that is not listed reads as (log entry 5). Every backed byte has a value from reset
on (spec R41); a byte of value 0 is the one not written down. -/
abbrev Memory.unlisted : Byte := 0#8

/-- The whole state of the core (spec R20) and, beside it, the region table, which is fixed for a run (log
entry 1). -/
structure State where
  /-- `x[0]` to `x[31]` (spec R21). -/
  regs    : Vector Word 32
  /-- The program counter (spec R24). -/
  pc      : Word
  /-- Memory (spec R41). -/
  mem     : Memory
  /-- Running, Halted or Faulted (spec R26). -/
  status  : Status
  /-- The instruction-executed counter, without a bound (spec R27). -/
  instret : Nat
  /-- Empty, or the fault record (spec R28). -/
  fault   : Option FaultRecord
  /-- The base addresses and lengths of REGIONS, immutable after reset (spec R44). -/
  regions : List Region
  deriving DecidableEq, Repr

/-- The state after reset (spec R32) for one choice of the parameters of spec R7: ENTRY_POINT 0 (DESIGN
CHOICE, log entry 2), STACK_TOP 0 (DESIGN CHOICE, log entry 3), and as REGIONS one region of 2^32 zero bytes
(DESIGN CHOICE, log entry 4). `bootState` is reset for every choice of them. -/
def State.reset : State where
  regs    := Vector.replicate 32 0#32
  pc      := 0#32
  mem     := []
  status  := .running
  instret := 0
  fault   := none
  regions := [⟨0#32, addressSpaceSize⟩]

end Sys2Proof.Machine
end

