-- ==== Sys2Proof/Machine/Ops.lean ====
section
/-! DEFINITION. The named operations over registers, memory and the run status that the meanings are
written in (spec R12, R21, R22, R43, R49 to R51, R102, R106, R107, R186). -/

namespace Sys2Proof.Machine

open Sys2Proof

/-! ## Registers -/

/-- The read `x[i]` (spec R21). -/
def State.readReg (s : State) (i : RegIdx) : Word := s.regs[i.toNat]'i.isLt

/-- The write `x[i] <- v`, for every index, 0 included (spec R22). -/
def State.writeReg (s : State) (i : RegIdx) (v : Word) : State :=
  { s with regs := s.regs.set i.toNat v i.isLt }

/-- The state with other bytes of memory. -/
def State.setMem (s : State) (m : Memory) : State := { s with mem := m }

/-- The default successor address `pc + 4` (spec R13, R25). -/
def State.nextPc (s : State) : Word := s.pc + 4#32

/-! ## The bytes of memory -/

/-- The byte at address `a` of memory. -/
def Memory.byteAt : Memory → Nat → Byte
  | [], _ => Memory.unlisted
  | (k, b) :: rest, a => if k = a then b else Memory.byteAt rest a

/-- Memory with no pair for `a`. -/
def Memory.erase : Memory → Nat → Memory
  | [], _ => []
  | (k, b) :: rest, a => if k = a then Memory.erase rest a else (k, b) :: Memory.erase rest a

/-- Memory with the pair `(a, v)` in its place among the rising addresses. -/
def Memory.insert : Memory → Nat → Byte → Memory
  | [], a, v => [(a, v)]
  | (k, b) :: rest, a, v =>
    if a < k then (a, v) :: (k, b) :: rest
    else if a = k then (a, v) :: rest
    else (k, b) :: Memory.insert rest a v

/-- Memory with the byte `v` at address `a`. Writing what an unlisted address reads as takes the pair away. -/
def Memory.setByte (m : Memory) (a : Nat) (v : Byte) : Memory :=
  if v = Memory.unlisted then Memory.erase m a else Memory.insert m a v

/-- The canonical form: addresses strictly rising, and no pair that an unlisted address would read as. -/
abbrev Memory.wf (m : Memory) : Prop :=
  m.Pairwise (fun c d => c.1 < d.1) ∧ ∀ c ∈ m, c.2 ≠ Memory.unlisted

/-- `b_0 + 2^8 * b_1 + ... + 2^(8(n-1)) * b_(n-1)` with `b_k` the byte at `a + k` (spec R47, R50). -/
def Memory.readBytes (m : Memory) (a : Nat) : Nat → Nat
  | 0 => 0
  | n + 1 => (Memory.byteAt m a).toNat + 256 * Memory.readBytes m (a + 1) n

/-- `v[8k+7 : 8k]` (spec R51). -/
def byteOf (v : Word) (k : Nat) : Byte := v.extractLsb' (8 * k) 8

/-- The bytes of `v` from number `k` on go to `n` addresses from `a + k` on (spec R47, R51). -/
def Memory.writeBytes (m : Memory) (a : Nat) (v : Word) (k : Nat) : Nat → Memory
  | 0 => m
  | n + 1 => Memory.writeBytes (Memory.setByte m (a + k) (byteOf v k)) a v (k + 1) n

/-! ## Regions -/

/-- One past the last address of the region, in the integers. -/
abbrev Region.stop (r : Region) : Nat := r.base.toNat + r.len

/-- Whether the region backs address `a` (spec R41). -/
abbrev Region.covers (r : Region) (a : Nat) : Prop := r.base.toNat ≤ a ∧ a < r.stop

/-- `region_of(addr)` (spec R43). -/
def regionOf (rs : List Region) (a : Nat) : Option Region := rs.find? (fun r => decide (r.covers a))

/-- Whether two regions back no common address (spec R42). -/
abbrev Region.disjoint (r q : Region) : Prop := r.stop ≤ q.base.toNat ∨ q.stop ≤ r.base.toNat

/-- Well-formed REGIONS (spec R42): at least one region, none empty, none past the top of the address space,
no two with a common address. -/
abbrev regionsWf (rs : List Region) : Prop :=
  rs ≠ [] ∧ (∀ r ∈ rs, 1 ≤ r.len ∧ r.stop ≤ addressSpaceSize) ∧ rs.Pairwise Region.disjoint

/-! ## The access primitives -/

/-- The access widths of 1, 2 and 4 bytes (spec R6, R52). -/
inductive Width where
  | byte
  | half
  | word
  deriving DecidableEq, Repr

/-- The number of bytes. -/
def Width.bytes : Width → Nat
  | .byte => 1
  | .half => 2
  | .word => 4

/-- The alignment rule (spec R48). -/
def aligned (a : Word) (w : Width) : Bool := decide (a.toNat % w.bytes = 0)

/-- The range rule: all bytes in the one region that holds the first (spec R49). -/
def inRange (rs : List Region) (a : Word) (w : Width) : Bool :=
  match regionOf rs a.toNat with
  | none => false
  | some r => decide (a.toNat + w.bytes ≤ r.stop)

/-- The check that both access primitives begin with: alignment first, range second (spec R50, R51). -/
def checkAccess (rs : List Region) (a : Word) (w : Width) : Except Fault Unit :=
  if aligned a w then
    if inRange rs a w then .ok () else .error .outOfRangeAccess
  else .error .unalignedAccess

/-- `MemRead(addr, n)`: the unsigned number in the `n` bytes at `a`, or a fault (spec R50). -/
def memRead (s : State) (a : Word) (w : Width) : Except Fault Word :=
  match checkAccess s.regions a w with
  | .error k => .error k
  | .ok _ => .ok (BitVec.ofNat 32 (Memory.readBytes s.mem a.toNat w.bytes))

/-- `MemWrite(addr, n, v)`: the low bytes of `v` go to the `n` bytes at `a`, or a fault and no byte is written
(spec R51). -/
def memWrite (s : State) (a : Word) (w : Width) (v : Word) : Except Fault State :=
  match checkAccess s.regions a w with
  | .error k => .error k
  | .ok _ => .ok (s.setMem (Memory.writeBytes s.mem a.toNat v 0 w.bytes))

/-- The instruction fetch `MemRead(pc, 4)` (spec R55, R102). -/
def fetch (s : State) : Except Fault Word := memRead s s.pc .word

/-! ## The end of an instruction -/

/-- Commit, count and halt test (spec R106, R107). The handler leaves `pc` alone, so `s.pc` is the address of
the instruction just executed. -/
def State.commit (s : State) (next : Word) : State :=
  { s with
    pc := next
    instret := s.instret + 1
    status := if next = s.pc then .halted else s.status }

/-- The effect of `raise Fault(kind)` (spec R185, R186): the record is made and the core is Faulted; nothing
else changes. There is no transfer of control (spec R189) and no return (spec R190). -/
def State.raiseFault (s : State) (k : Fault) (inst : Option Word) : State :=
  { s with status := .faulted, fault := some ⟨k, s.pc, inst⟩ }

/-- The kind of fault that a rejected word raises (spec R183, R184). -/
def faultOfReject : Reject → Fault
  | .unknownOpcode => .unknownOpcode
  | .unimplementedOperation => .unimplementedOperation

/-- A handler that returns `next` in the state `s` (spec R106, R108). -/
def complete (s : State) (next : Word) : Host.Outcome State Fault Refusal := .next (s.commit next)

/-- A handler or a fetch that raises a fault in the state `s` (spec R186). -/
def raise (s : State) (k : Fault) (inst : Option Word) : Host.Outcome State Fault Refusal :=
  .next (s.raiseFault k inst)

/-! ## Placing one instruction word -/

/-- Memory without the bytes that no region backs. -/
def Memory.backedBy (m : Memory) (rs : List Region) : Memory :=
  m.filter (fun c => (regionOf rs c.1).isSome)

/-- The state with the word `w` in the four bytes at `pc`. Where these are not inside one region, a region of
four bytes at `pc` is added and the regions it would overlap go, with their bytes: the load of a program from
outside the machine (log entry 9). -/
def State.placeWord (s : State) (w : Word) : State :=
  if inRange s.regions s.pc .word then
    s.setMem (Memory.writeBytes s.mem s.pc.toNat w 0 4)
  else
    let new : Region := ⟨s.pc, 4⟩
    let kept := s.regions.filter (fun r => decide (r.disjoint new))
    { s with
      regions := new :: kept
      mem := Memory.writeBytes (Memory.backedBy s.mem (new :: kept)) s.pc.toNat w 0 4 }

end Sys2Proof.Machine
end

