-- ==== Sys2Proof/Machine/Operands.lean ====
section
/-! DEFINITION. The operand forms: extended immediates, the effective address, jump and branch targets, and
the extension of loaded data (spec R10, R77 to R82, R120, R130, R165). -/

namespace Sys2Proof.Machine

open Sys2Proof

/-- `sext_N(v)` (spec R10). -/
def sext {n : Nat} (v : BitVec n) : Word := v.signExtend 32

/-- `zext_N(v)` (spec R10). -/
def zext {n : Nat} (v : BitVec n) : Word := v.setWidth 32

/-- `imm_u = inst[31:12] || 0x000` from its upper 20 bits (spec R80). -/
def immUpper (imm : BitVec 20) : Word := imm ++ 0#12

/-- The effective address `x[rs1] + imm` of a load or store, modulo 2^32 (spec R120, R130). -/
def State.effAddr (s : State) (rs1 : RegIdx) (imm : BitVec 12) : Word := s.readReg rs1 + sext imm

/-- The target `pc + offset` of a jump or a taken branch, modulo 2^32 (spec R165). -/
def State.target {n : Nat} (s : State) (off : BitVec n) : Word := s.pc + sext off

/-- How a load extends the data it reads (spec R120). -/
inductive Extension where
  | sign
  | zero
  deriving DecidableEq, Repr

/-- The extension of `w.bytes` bytes of data to 32 bits; a word needs none (spec R120). -/
def extend : Width → Extension → Word → Word
  | .byte, .sign, v => sext (v.setWidth 8)
  | .byte, .zero, v => zext (v.setWidth 8)
  | .half, .sign, v => sext (v.setWidth 16)
  | .half, .zero, v => zext (v.setWidth 16)
  | .word, _, v => v

end Sys2Proof.Machine
end

