-- ==== Sys2Proof/Machine/AluImm.lean ====
section
/-! DEFINITION. ADDI, SLLI, SUBI (spec 43_alu_immediate.md). -/

namespace Sys2Proof.Machine

open Sys2Proof

/-- What the instructions of both ALU classes and LUI share: the result goes to `x[rd]` and the next address
is `pc + 4` (spec R140, R150, R160). -/
def writeResult (rd : RegIdx) (v : Word) (s : State) : Host.Outcome State Fault Refusal :=
  complete (s.writeReg rd v) s.nextPc

/-- ADDI (spec R141). -/
def execAddi (rd rs1 : RegIdx) (imm : BitVec 12) (s : State) : Host.Outcome State Fault Refusal :=
  writeResult rd (s.readReg rs1 + sext imm) s

/-- SLLI (spec R142). -/
def execSlli (rd rs1 : RegIdx) (shamt : BitVec 5) (s : State) : Host.Outcome State Fault Refusal :=
  writeResult rd (s.readReg rs1 <<< shamt.toNat) s

/-- SUBI (spec R143). -/
def execSubi (rd rs1 : RegIdx) (imm : BitVec 12) (s : State) : Host.Outcome State Fault Refusal :=
  writeResult rd (s.readReg rs1 - sext imm) s

end Sys2Proof.Machine
end

