-- ==== Sys2Proof/Machine/AluReg.lean ====
section
/-! DEFINITION. ADD, MUL, SUB (spec 44_alu_register.md). -/

namespace Sys2Proof.Machine

open Sys2Proof

/-- ADD (spec R151). -/
def execAdd (rd rs1 rs2 : RegIdx) (s : State) : Host.Outcome State Fault Refusal :=
  writeResult rd (s.readReg rs1 + s.readReg rs2) s

/-- MUL: the low 32 bits of the product (spec R152). -/
def execMul (rd rs1 rs2 : RegIdx) (s : State) : Host.Outcome State Fault Refusal :=
  writeResult rd (s.readReg rs1 * s.readReg rs2) s

/-- SUB (spec R153). -/
def execSub (rd rs1 rs2 : RegIdx) (s : State) : Host.Outcome State Fault Refusal :=
  writeResult rd (s.readReg rs1 - s.readReg rs2) s

end Sys2Proof.Machine
end

