-- ==== Sys2Proof/Machine/Branches.lean ====
section
/-! DEFINITION. BEQ, BNE, BLT, BGE, BLTU, BGEU (spec 47_branches.md). -/

namespace Sys2Proof.Machine

open Sys2Proof

/-- What the six branches share (spec R170). -/
def branch (c : Cond) (rs1 rs2 : RegIdx) (imm : BitVec 13) (s : State) : Host.Outcome State Fault Refusal :=
  complete s (if c.holds (s.readReg rs1) (s.readReg rs2) then s.target imm else s.nextPc)

/-- BEQ (spec R171). -/
def execBeq (rs1 rs2 : RegIdx) (imm : BitVec 13) (s : State) : Host.Outcome State Fault Refusal :=
  branch .eq rs1 rs2 imm s

/-- BNE (spec R172). -/
def execBne (rs1 rs2 : RegIdx) (imm : BitVec 13) (s : State) : Host.Outcome State Fault Refusal :=
  branch .ne rs1 rs2 imm s

/-- BLT (spec R173). -/
def execBlt (rs1 rs2 : RegIdx) (imm : BitVec 13) (s : State) : Host.Outcome State Fault Refusal :=
  branch .lt rs1 rs2 imm s

/-- BGE (spec R174). -/
def execBge (rs1 rs2 : RegIdx) (imm : BitVec 13) (s : State) : Host.Outcome State Fault Refusal :=
  branch .ge rs1 rs2 imm s

/-- BLTU (spec R175). -/
def execBltu (rs1 rs2 : RegIdx) (imm : BitVec 13) (s : State) : Host.Outcome State Fault Refusal :=
  branch .ltu rs1 rs2 imm s

/-- BGEU (spec R176). -/
def execBgeu (rs1 rs2 : RegIdx) (imm : BitVec 13) (s : State) : Host.Outcome State Fault Refusal :=
  branch .geu rs1 rs2 imm s

end Sys2Proof.Machine
end

