-- ==== Sys2Proof/Machine/Jal.lean ====
section
/-! DEFINITION. JAL (spec 46_jal.md). -/

namespace Sys2Proof.Machine

open Sys2Proof

/-- JAL: the link value always goes to `x[1]` (spec R166). -/
def execJal (imm : BitVec 21) (s : State) : Host.Outcome State Fault Refusal :=
  complete (s.writeReg 1#5 s.nextPc) (s.target imm)

end Sys2Proof.Machine
end

