-- ==== Sys2Proof/Machine/Loads.lean ====
section
/-! DEFINITION. LB, LH, LW, LBU, LHU (spec 41_loads.md). The instruction word of a fault record is `encode`
of the load: a load has no ignored bits (spec R86), so it is the word that was fetched (log entry 11). -/

namespace Sys2Proof.Machine

open Sys2Proof

/-- What the five loads share (spec R120): effective address, `MemRead`, extension, write of `x[rd]`. -/
def load (w : Width) (e : Extension) (i : Instr) (rd rs1 : RegIdx) (imm : BitVec 12) (s : State) :
    Host.Outcome State Fault Refusal :=
  match memRead s (s.effAddr rs1 imm) w with
  | .error k => raise s k (some (encode i))
  | .ok v => complete (s.writeReg rd (extend w e v)) s.nextPc

/-- LB (spec R121). -/
def execLb (rd rs1 : RegIdx) (imm : BitVec 12) (s : State) : Host.Outcome State Fault Refusal :=
  load .byte .sign (.lb rd rs1 imm) rd rs1 imm s

/-- LH (spec R122). -/
def execLh (rd rs1 : RegIdx) (imm : BitVec 12) (s : State) : Host.Outcome State Fault Refusal :=
  load .half .sign (.lh rd rs1 imm) rd rs1 imm s

/-- LW (spec R123). -/
def execLw (rd rs1 : RegIdx) (imm : BitVec 12) (s : State) : Host.Outcome State Fault Refusal :=
  load .word .zero (.lw rd rs1 imm) rd rs1 imm s

/-- LBU (spec R124). -/
def execLbu (rd rs1 : RegIdx) (imm : BitVec 12) (s : State) : Host.Outcome State Fault Refusal :=
  load .byte .zero (.lbu rd rs1 imm) rd rs1 imm s

/-- LHU (spec R125). -/
def execLhu (rd rs1 : RegIdx) (imm : BitVec 12) (s : State) : Host.Outcome State Fault Refusal :=
  load .half .zero (.lhu rd rs1 imm) rd rs1 imm s

end Sys2Proof.Machine
end

