-- ==== Sys2Proof/Machine/Lui.lean ====
section
/-! DEFINITION. LUI (spec 45_lui.md). -/

namespace Sys2Proof.Machine

open Sys2Proof

/-- LUI (spec R160). -/
def execLui (rd : RegIdx) (imm : BitVec 20) (s : State) : Host.Outcome State Fault Refusal :=
  writeResult rd (immUpper imm) s

end Sys2Proof.Machine
end

