-- ==== Sys2Proof/Machine/Stores.lean ====
section
/-! DEFINITION. SB, SH, SW (spec 42_stores.md). The instruction word of a fault record is `encode` of the
store: a store has no ignored bits (spec R86), so it is the word that was fetched (log entry 11). -/

namespace Sys2Proof.Machine

open Sys2Proof

/-- What the three stores share (spec R130): effective address, `MemWrite` of the low bytes of `x[rs2]`. -/
def store (w : Width) (i : Instr) (rs1 rs2 : RegIdx) (imm : BitVec 12) (s : State) :
    Host.Outcome State Fault Refusal :=
  match memWrite s (s.effAddr rs1 imm) w (s.readReg rs2) with
  | .error k => raise s k (some (encode i))
  | .ok t => complete t s.nextPc

/-- SB (spec R131). -/
def execSb (rs1 rs2 : RegIdx) (imm : BitVec 12) (s : State) : Host.Outcome State Fault Refusal :=
  store .byte (.sb rs1 rs2 imm) rs1 rs2 imm s

/-- SH (spec R132). -/
def execSh (rs1 rs2 : RegIdx) (imm : BitVec 12) (s : State) : Host.Outcome State Fault Refusal :=
  store .half (.sh rs1 rs2 imm) rs1 rs2 imm s

/-- SW (spec R133). -/
def execSw (rs1 rs2 : RegIdx) (imm : BitVec 12) (s : State) : Host.Outcome State Fault Refusal :=
  store .word (.sw rs1 rs2 imm) rs1 rs2 imm s

end Sys2Proof.Machine
end

