-- ==== Sys2Proof/Machine/Cycle.lean ====
section
/-! DEFINITION. The parts of a step (spec R102 to R108), the reset of a core with given parameters (spec
R32, R41, R42, R210 to R213, R216) and what a run gives back (spec R110, R221). -/

namespace Sys2Proof.Machine

open Sys2Proof

/-- Fetch, dispatch, execute (spec R102 to R105). The order of the faults is that of spec R188. -/
def fetchExecute (s : State) : Host.Outcome State Fault Refusal :=
  match fetch s with
  | .error k => raise s k none
  | .ok w =>
    match decode w with
    | .error r => raise s (faultOfReject r) (some w)
    | .ok i => exec i s

/-- One step (spec R100, R101, R108). A core that is Halted or Faulted takes no step and no state changes
(DESIGN CHOICE, log entry 7: the answer is the same state). A running core with an ill-formed region table is
refused (spec R42; log entry 8). -/
def cycle (s : State) : Host.Outcome State Fault Refusal :=
  match s.status with
  | .running => if regionsWf s.regions then fetchExecute s else .refused .illFormedRegions
  | .halted => .next s
  | .faulted => .next s

/-! ## Reset -/

/-- The place of a segment (spec R41). -/
def segmentRegion (g : Segment) : Region := ⟨g.base, g.bytes.length⟩

/-- Memory with the bytes `bs` at the addresses from `a` on (spec R41). -/
def Memory.loadBytes (m : Memory) (a : Nat) : List Byte → Memory
  | [] => m
  | b :: bs => Memory.loadBytes (Memory.setByte m a b) (a + 1) bs

/-- The bytes of every region (spec R32, R41). -/
def Memory.loadSegments (m : Memory) : List Segment → Memory
  | [] => m
  | g :: gs => Memory.loadSegments (Memory.loadBytes m g.base.toNat g.bytes) gs

/-- The state that reset leaves (spec R32, R211). -/
def resetWith (p : Params) : State where
  regs    := (Vector.replicate 32 0#32).set 2 p.stackTop
  pc      := p.entryPoint
  mem     := Memory.loadSegments [] p.regions
  status  := .running
  instret := 0
  fault   := none
  regions := p.regions.map segmentRegion

/-- The release of reset with the parameters `p`: none where REGIONS is not well-formed, since the core is
then never released from reset (spec R42, R193, R216). -/
def bootState (p : Params) : Option State :=
  if regionsWf (p.regions.map segmentRegion) then some (resetWith p) else none

/-! ## The result of a run -/

/-- What `run` gives back: the instructions-executed count, or the fault record (spec R110, R221). -/
inductive RunResult where
  | summary (instret : Nat)
  | fault (record : FaultRecord)
  deriving DecidableEq, Repr

/-- The result of a run that has ended; none while the core runs (spec R110, R221). -/
def State.result (s : State) : Option RunResult :=
  match s.status with
  | .running => none
  | .halted => some (.summary s.instret)
  | .faulted => s.fault.map .fault

/-! ## The host's instruction word -/

/-- The state with an instruction of `nbits` bits, numbered as spec/opcode_table.json numbers them, where the
next step fetches. -/
def State.placeTableWord (s : State) (nbits w : Nat) : State :=
  s.placeWord (BitVec.ofNat 32 (w % 2 ^ nbits))

end Sys2Proof.Machine
end

