-- ==== Sys2Proof/Safety.lean ====
section
/-! DEFINITION. What counts as a sound state and a safe run, and the words that the statements are written
in. -/

namespace Sys2Proof.Machine

open Sys2Proof

/-! ## Invariants -/

/-- What holds in every state that a core can be in (spec R28, R33, R41, R42). -/
structure State.Inv (s : State) : Prop where
  /-- Memory is in its canonical form. -/
  memCanonical : Memory.wf s.mem
  /-- Only addresses that a region backs are listed (spec R41). -/
  memBacked : ∀ c ∈ s.mem, ∃ r ∈ s.regions, r.covers c.1
  /-- The regions are well-formed (spec R42). -/
  regionsOk : regionsWf s.regions
  /-- The fault record is empty while the core is Running or Halted, and is there when it is Faulted
  (spec R28). -/
  faultIffFaulted : s.fault ≠ none ↔ s.status = .faulted

/-- Bit 0 of `pc` is 0 (spec R165: offsets are always even). -/
def State.PcEven (s : State) : Prop := s.pc.toNat % 2 = 0

/-- A safe run meets only states that are not Faulted. -/
def State.Safe (s : State) : Prop := s.status ≠ .faulted

/-! ## Operands of instructions as syntax -/

/-- The register an instruction writes: `rd`, and register 1 for JAL (spec R23, R166). -/
def destReg : Instr → Option RegIdx
  | .lb rd _ _ | .lh rd _ _ | .lw rd _ _ | .lbu rd _ _ | .lhu rd _ _ => some rd
  | .addi rd _ _ | .slli rd _ _ | .subi rd _ _ => some rd
  | .add rd _ _ | .mul rd _ _ | .sub rd _ _ => some rd
  | .lui rd _ => some rd
  | .jal _ => some 1#5
  | .sb _ _ _ | .sh _ _ _ | .sw _ _ _ => none
  | .beq _ _ _ | .bne _ _ _ | .blt _ _ _ | .bge _ _ _ | .bltu _ _ _ | .bgeu _ _ _ => none

/-- The address and the width of an instruction's data access in a state (spec R52, R120, R130). -/
def dataAccess (s : State) : Instr → Option (Word × Width)
  | .lb _ rs1 imm | .lbu _ rs1 imm | .sb rs1 _ imm => some (s.effAddr rs1 imm, .byte)
  | .lh _ rs1 imm | .lhu _ rs1 imm | .sh rs1 _ imm => some (s.effAddr rs1 imm, .half)
  | .lw _ rs1 imm | .sw rs1 _ imm => some (s.effAddr rs1 imm, .word)
  | .addi _ _ _ | .slli _ _ _ | .subi _ _ _ | .add _ _ _ | .mul _ _ _ | .sub _ _ _ | .lui _ _ | .jal _
  | .beq _ _ _ | .bne _ _ _ | .blt _ _ _ | .bge _ _ _ | .bltu _ _ _ | .bgeu _ _ _ => none

/-- Whether an instruction is SB, SH or SW. -/
def isStore : Instr → Bool
  | .sb _ _ _ | .sh _ _ _ | .sw _ _ _ => true
  | .lb _ _ _ | .lh _ _ _ | .lw _ _ _ | .lbu _ _ _ | .lhu _ _ _
  | .addi _ _ _ | .slli _ _ _ | .subi _ _ _ | .add _ _ _ | .mul _ _ _ | .sub _ _ _ | .lui _ _ | .jal _
  | .beq _ _ _ | .bne _ _ _ | .blt _ _ _ | .bge _ _ _ | .bltu _ _ _ | .bgeu _ _ _ => false

/-- The register whose low bytes a store writes (spec R130). -/
def storeSource : Instr → Option RegIdx
  | .sb _ rs2 _ | .sh _ rs2 _ | .sw _ rs2 _ => some rs2
  | .lb _ _ _ | .lh _ _ _ | .lw _ _ _ | .lbu _ _ _ | .lhu _ _ _
  | .addi _ _ _ | .slli _ _ _ | .subi _ _ _ | .add _ _ _ | .mul _ _ _ | .sub _ _ _ | .lui _ _ | .jal _
  | .beq _ _ _ | .bne _ _ _ | .blt _ _ _ | .bge _ _ _ | .bltu _ _ _ | .bgeu _ _ _ => none

/-- Whether an instruction transfers control to its own address in a state: a JAL with offset 0, or a branch
whose condition holds with offset 0 (spec R107). -/
def selfTransfer (s : State) : Instr → Prop
  | .jal imm => imm = 0#21
  | .beq rs1 rs2 imm => imm = 0#13 ∧ s.readReg rs1 = s.readReg rs2
  | .bne rs1 rs2 imm => imm = 0#13 ∧ s.readReg rs1 ≠ s.readReg rs2
  | .blt rs1 rs2 imm => imm = 0#13 ∧ (s.readReg rs1).toInt < (s.readReg rs2).toInt
  | .bge rs1 rs2 imm => imm = 0#13 ∧ (s.readReg rs2).toInt ≤ (s.readReg rs1).toInt
  | .bltu rs1 rs2 imm => imm = 0#13 ∧ (s.readReg rs1).toNat < (s.readReg rs2).toNat
  | .bgeu rs1 rs2 imm => imm = 0#13 ∧ (s.readReg rs2).toNat ≤ (s.readReg rs1).toNat
  | .lb _ _ _ | .lh _ _ _ | .lw _ _ _ | .lbu _ _ _ | .lhu _ _ _ | .sb _ _ _ | .sh _ _ _ | .sw _ _ _
  | .addi _ _ _ | .slli _ _ _ | .subi _ _ _ | .add _ _ _ | .mul _ _ _ | .sub _ _ _ | .lui _ _ => False

/-! ## What holds between a state and the next -/

/-- The byte at an address, read through the model's memory. -/
def byteIn (s : State) (a : Nat) : Byte := Memory.byteAt s.mem a

/-- Every register reads as before. -/
def SameRegs (s t : State) : Prop := ∀ j : RegIdx, t.readReg j = s.readReg j

/-- Every register but `rd` reads as before. -/
def SameRegsExcept (s t : State) (rd : RegIdx) : Prop := ∀ j : RegIdx, j ≠ rd → t.readReg j = s.readReg j

/-- Every byte of memory reads as before. -/
def SameBytes (s t : State) : Prop := ∀ b : Nat, byteIn t b = byteIn s b

/-- Every byte of memory outside the `n` bytes from `a` on reads as before. -/
def SameBytesOutside (s t : State) (a n : Nat) : Prop :=
  ∀ b : Nat, b < a ∨ a + n ≤ b → byteIn t b = byteIn s b

/-- The run goes on at `pc + 4` modulo 2^32 with the instruction counted; status, fault record and region
table are as before (spec R25, R106). -/
def Advances (s t : State) : Prop :=
  t.pc.toNat = (s.pc.toNat + 4) % addressSpaceSize ∧ t.instret = s.instret + 1 ∧ t.status = s.status ∧
    t.fault = s.fault ∧ t.regions = s.regions

/-- The run goes on at `pc + d` modulo 2^32 with the instruction counted, and is Halted when that is the
instruction's own address; fault record and region table are as before (spec R25, R106, R107). -/
def GoesTo (s t : State) (d : Int) : Prop :=
  (t.pc.toNat : Int) = (s.pc.toNat + d) % addressSpaceSize ∧ t.instret = s.instret + 1 ∧
    t.status = (if t.pc = s.pc then .halted else s.status) ∧ t.fault = s.fault ∧ t.regions = s.regions

/-- The address `x[rs1] + imm` modulo 2^32, the displacement read as a signed number (spec R120, R130). -/
def IsEffectiveAddress (s : State) (rs1 : RegIdx) (imm : BitVec 12) (a : Word) : Prop :=
  (a.toNat : Int) = ((s.readReg rs1).toNat + imm.toInt) % addressSpaceSize

/-- The state with the fault record of a fault of kind `k`: all that a fault changes (spec R186). -/
def faulted (s : State) (k : Fault) (inst : Option Word) : State :=
  { s with status := .faulted, fault := some ⟨k, s.pc, inst⟩ }

/-- Two states that differ at most in `status`, `instret` and `fault`, which no instruction reads (spec
R20). -/
def SameToPrograms (s t : State) : Prop :=
  t.regs = s.regs ∧ t.pc = s.pc ∧ t.mem = s.mem ∧ t.regions = s.regions

/-- The fault record says which word at `pc` faulted and why: a fetch that raises the kind, a word the decoder
rejects with the kind, or an instruction whose data access raises the kind (spec R181 to R186). -/
def RecordExplained (s : State) (f : FaultRecord) : Prop :=
  f.pc = s.pc ∧
    match f.inst with
    | none => fetch s = .error f.kind
    | some w => fetch s = .ok w ∧
        ((∃ r, decode w = .error r ∧ f.kind = faultOfReject r) ∨
         ∃ i a n, decode w = .ok i ∧ dataAccess s i = some (a, n) ∧
           checkAccess s.regions a n = .error f.kind)

end Sys2Proof.Machine
end

