-- ==== Sys2Proof/Certificates/Slice0/Obligations.lean ====
section
/-! DEFINITION. The statements for the provers: def Obligations.<Name> : Prop. -/

open Sys2Proof Sys2Proof.Machine

/-- Words written out in the spec decode to the instructions they stand for.
Derived from 95_test_vectors.md section 2, 30_encoding.md R85. -/
def Obligations.SpecWordsDecode : Prop :=
  decode 0xFFF30283#32 = .ok (.lb 5 6 (-1)) ∧
  decode 0xFE731F23#32 = .ok (.sh 6 7 (-2)) ∧
  decode 0x80032293#32 = .ok (.subi 5 6 (-2048)) ∧
  decode 0xFFF31293#32 = .ok (.slli 5 6 31) ∧
  decode 0x027302B3#32 = .ok (.mul 5 6 7) ∧
  decode 0x407322B3#32 = .ok (.sub 5 6 7) ∧
  decode 0x407302B3#32 = .error .unimplementedOperation ∧
  decode 0x123452B7#32 = .ok (.lui 5 0x12345) ∧
  decode 0x7FFFF0EF#32 = .ok (.jal 0x0FFFFE) ∧
  decode 0xFE000FE3#32 = .ok (.beq 0 0 0x1FFE) ∧
  decode 0x8062F063#32 = .ok (.bgeu 5 6 0x1000) ∧
  decode 0x00000073#32 = .error .unknownOpcode

/-- A word built from field values in any of the six formats gives back exactly those values.
States R93. -/
def Obligations.FormatFieldsRoundTrip : Prop :=
  (∀ f7 rs2 rs1 f3 rd op, let w := encodeR f7 rs2 rs1 f3 rd op
    funct7Of w = f7 ∧ rs2Of w = rs2 ∧ rs1Of w = rs1 ∧ funct3Of w = f3 ∧ rdOf w = rd ∧ opcodeOf w = op) ∧
  (∀ imm rs1 f3 rd op, let w := encodeI imm rs1 f3 rd op
    immIOf w = imm ∧ rs1Of w = rs1 ∧ funct3Of w = f3 ∧ rdOf w = rd ∧ opcodeOf w = op) ∧
  (∀ imm rs2 rs1 f3 op, let w := encodeS imm rs2 rs1 f3 op
    immSOf w = imm ∧ rs2Of w = rs2 ∧ rs1Of w = rs1 ∧ funct3Of w = f3 ∧ opcodeOf w = op) ∧
  (∀ imm rs2 rs1 f3 op, imm.getLsbD 0 = false → let w := encodeB imm rs2 rs1 f3 op
    immBOf w = imm ∧ rs2Of w = rs2 ∧ rs1Of w = rs1 ∧ funct3Of w = f3 ∧ opcodeOf w = op) ∧
  (∀ imm rd op, let w := encodeU imm rd op
    immUOf w = imm ∧ rdOf w = rd ∧ opcodeOf w = op) ∧
  (∀ imm rd op, imm.getLsbD 0 = false → let w := encodeJ imm rd op
    immJOf w = imm ∧ rdOf w = rd ∧ opcodeOf w = op)

/-- Decoding the word of any well-formed instruction gives back that instruction.
Derived from 30_encoding.md R85, 30_encoding.md R90, 30_encoding.md R93.
(That encode writes 0 in the ignored rd of JAL is the model's choice, DESIGN CHOICE, log entry 10; the zeros that it writes in inst[31:25] of SLLI and SUB are those of R90.) -/
def Obligations.DecodeOfEncodeIsIdentity : Prop :=
  ∀ i : Instr, i.wf = true → decode (encode i) = .ok i

/-- Encoding what a word decodes to gives back the word with its ignored bits cleared (for the rd of JAL the model's choice, log entry 10).
Derived from 30_encoding.md R83, 30_encoding.md R86, 30_encoding.md R90.
(That encode writes 0 in the ignored rd of JAL is the model's choice, DESIGN CHOICE, log entry 10; the zeros that it writes in inst[31:25] of SLLI and SUB are those of R90.) -/
def Obligations.EncodeOfDecodeKeepsTheReadBits : Prop :=
  ∀ (w : Word) (i : Instr), decode w = .ok i → i.wf = true ∧ encode i = w &&& i.careMask

/-- A word is the instruction of the one row whose mask and match it meets; rows are disjoint; other words are rejected.
States R85. -/
def Obligations.TheTableRowsAreExactlyTheInstructions : Prop :=
  (∀ w : Word, ∀ r ∈ opcodeTable, ∀ q ∈ opcodeTable,
    w &&& r.mask = r.pattern → w &&& q.mask = q.pattern → r = q) ∧
  (∀ w : Word, ∀ r ∈ opcodeTable, w &&& r.mask = r.pattern → ∃ i, decode w = .ok i ∧ i.row = r) ∧
  (∀ w : Word, (∀ r ∈ opcodeTable, w &&& r.mask ≠ r.pattern) → ∃ e, decode w = .error e)

/-- A fetched word raises UnknownOpcode exactly when its opcode is none of the seven.
States R104, R183. -/
def Obligations.UnknownOpcodesFault : Prop :=
  (∀ w : Word, decode w = .error .unknownOpcode ↔
    w.extractLsb' 0 7 ∉ [0b0000011#7, 0b0010011#7, 0b0100011#7, 0b0110011#7, 0b0110111#7, 0b1100011#7,
      0b1101111#7]) ∧
  ∀ (s : State) (w : Word), s.status = .running → regionsWf s.regions → fetch s = .ok w →
    w.extractLsb' 0 7 ∉ [0b0000011#7, 0b0010011#7, 0b0100011#7, 0b0110011#7, 0b0110111#7, 0b1100011#7,
      0b1101111#7] →
    step s = .next (faulted s .unknownOpcode (some w))

/-- Within the handled opcodes, exactly the unlisted function codes raise UnimplementedOperation.
States R88, R184.
(The rule carries the spec's own decision D4.) -/
def Obligations.UnlistedFunctionCodesFault : Prop :=
  (∀ w : Word, decode w = .error .unimplementedOperation ↔
    (opcodeOf w = 0b0000011#7 ∧ (funct3Of w).toNat ∈ [3, 6, 7]) ∨
    (opcodeOf w = 0b0100011#7 ∧ 3 ≤ (funct3Of w).toNat) ∨
    (opcodeOf w = 0b0010011#7 ∧ 3 ≤ (funct3Of w).toNat) ∨
    (opcodeOf w = 0b0110011#7 ∧
      ((funct3Of w = 0 ∧ 2 ≤ (funct7Of w).toNat) ∨ (funct3Of w ≠ 0 ∧ funct3Of w ≠ 2))) ∨
    (opcodeOf w = 0b1100011#7 ∧ (funct3Of w).toNat ∈ [2, 3])) ∧
  ∀ (s : State) (w : Word), s.status = .running → regionsWf s.regions → fetch s = .ok w →
    decode w = .error .unimplementedOperation →
    step s = .next (faulted s .unimplementedOperation (some w))

/-- inst[31:25] of SLLI and SUB and inst[11:7] of JAL may be anything.
States R86.
(The rule carries the spec's own decision D17.) -/
def Obligations.IgnoredBitsDoNotMatter : Prop :=
  (∀ v w : Word, v &&& 0x01FFFFFF#32 = w &&& 0x01FFFFFF#32 →
    (v &&& 0x0000707F#32 = 0x00001013#32 ∨ v &&& 0x0000707F#32 = 0x00002033#32) →
    decode v = decode w ∧ ∃ i, decode v = .ok i) ∧
  (∀ v w : Word, v &&& 0xFFFFF07F#32 = w &&& 0xFFFFF07F#32 → v &&& 0x0000007F#32 = 0x0000006F#32 →
    decode v = decode w ∧ ∃ i, decode v = .ok i)

/-- The S, B, U and J immediates take their bits from the places the spec gives, and the signed ones are read as signed.
States R78, R79, R80, R81, R82. -/
def Obligations.ImmediatesAreAssembledFromTheirFields : Prop :=
  ∀ w : Word,
    let f := fun lsb len => w.toNat / 2 ^ lsb % 2 ^ len
    (immSOf w).toNat = f 25 7 * 32 + f 7 5 ∧
    (sext (immSOf w)).toInt = (if (immSOf w).toNat < 2048 then ((immSOf w).toNat : Int)
      else (immSOf w).toNat - 4096) ∧
    (immBOf w).toNat = f 31 1 * 4096 + f 7 1 * 2048 + f 25 6 * 32 + f 8 4 * 2 ∧
    (sext (immBOf w)).toInt = (if (immBOf w).toNat < 4096 then ((immBOf w).toNat : Int)
      else (immBOf w).toNat - 8192) ∧
    (immUpper (immUOf w)).toNat = f 12 20 * 4096 ∧
    (immJOf w).toNat = f 31 1 * 1048576 + f 12 8 * 4096 + f 20 1 * 2048 + f 21 10 * 2 ∧
    (sext (immJOf w)).toInt = (if (immJOf w).toNat < 1048576 then ((immJOf w).toNat : Int)
      else (immJOf w).toNat - 2097152)

/-- With well-formed regions, an access is in range exactly when one region holds all its bytes, and that region is unique.
States R43, R49.
(The rule carries the spec's own decision D5 and D6.) -/
def Obligations.AccessIsInRangeInsideOneRegion : Prop :=
  ∀ (rs : List Region) (a : Word) (w : Width), regionsWf rs →
    (∀ r ∈ rs, ∀ q ∈ rs, r.covers a.toNat → q.covers a.toNat → r = q) ∧
    (∀ r, regionOf rs a.toNat = some r ↔ r ∈ rs ∧ r.covers a.toNat) ∧
    (inRange rs a w = true ↔ ∃ r ∈ rs, r.base.toNat ≤ a.toNat ∧ a.toNat + w.bytes ≤ r.base.toNat + r.len) ∧
    (∀ s : State, s.regions = rs → a.toNat % w.bytes = 0 → inRange rs a w = false →
      memRead s a w = .error .outOfRangeAccess ∧ ∀ v, memWrite s a w v = .error .outOfRangeAccess)

/-- MemRead tests alignment, then range, and otherwise gives the little-endian number in the bytes.
States R50.
(The rule carries the spec's own decision D11, and its byte order D2.) -/
def Obligations.MemReadIsLittleEndianAndChecked : Prop :=
  ∀ (s : State) (a : Word) (w : Width),
    (a.toNat % w.bytes ≠ 0 → memRead s a w = .error .unalignedAccess) ∧
    (a.toNat % w.bytes = 0 → inRange s.regions a w = false → memRead s a w = .error .outOfRangeAccess) ∧
    (a.toNat % w.bytes = 0 → inRange s.regions a w = true → ∃ v, memRead s a w = .ok v ∧
      let b := fun k => (byteIn s (a.toNat + k)).toNat
      v.toNat = match w with
        | .byte => b 0
        | .half => b 0 + 256 * b 1
        | .word => b 0 + 256 * b 1 + 65536 * b 2 + 16777216 * b 3)

/-- MemWrite stores the low bytes of the value little-endian and nothing else, or faults and stores nothing.
States R51.
(The rule carries the spec's own decision D11, and its byte order D2.) -/
def Obligations.MemWriteStoresTheLowBytes : Prop :=
  ∀ (s : State) (a : Word) (w : Width) (v : Word),
    (a.toNat % w.bytes ≠ 0 → memWrite s a w v = .error .unalignedAccess) ∧
    (a.toNat % w.bytes = 0 → inRange s.regions a w = false → memWrite s a w v = .error .outOfRangeAccess) ∧
    (a.toNat % w.bytes = 0 → inRange s.regions a w = true → ∃ t, memWrite s a w v = .ok t ∧
      (∀ k, k < w.bytes → (byteIn t (a.toNat + k)).toNat = v.toNat / 256 ^ k % 256) ∧
      SameBytesOutside s t a.toNat w.bytes ∧ t = { s with mem := t.mem })

/-- After a word write, reads of every width at every place in it give the bytes of the value.
Derived from 20_memory.md R47, R50, R51, R54.
(This is the spec's own inference from these rules.) -/
def Obligations.MixedWidthReadsAfterAWordWrite : Prop :=
  ∀ (s t : State) (a v : Word), regionsWf s.regions → memWrite s a .word v = .ok t →
    (∀ k : Nat, k < 4 → memRead t (a + BitVec.ofNat 32 k) .byte = .ok ((v >>> (8 * k)) &&& 0xFF#32)) ∧
    memRead t a .half = .ok (v &&& 0xFFFF#32) ∧
    memRead t (a + 2#32) .half = .ok (v >>> 16) ∧
    memRead t a .word = .ok v

/-- LB writes the sign-extended byte at x[rs1] + imm.
States R121. -/
def Obligations.LbLoadsASignedByte : Prop :=
  (∀ w : Word, w &&& 0x0000707F#32 = 0x00000003#32 → decode w = .ok (.lb (field w 7 5) (field w 15 5) (field w 20 12))) ∧
  ∀ (rd rs1 : RegIdx) (imm : BitVec 12) (s : State) (a : Word), s.effAddr rs1 imm = a →
      IsEffectiveAddress s rs1 imm a ∧
        (inRange s.regions a .byte = true →
          ∃ t, exec (.lb rd rs1 imm) s = .next t ∧
            (t.readReg rd).toInt = (byteIn s a.toNat).toInt ∧
            SameRegsExcept s t rd ∧ SameBytes s t ∧ Advances s t) ∧
        (inRange s.regions a .byte = false →
          exec (.lb rd rs1 imm) s = .next (faulted s .outOfRangeAccess (some (encode (.lb rd rs1 imm)))))

/-- LH writes the sign-extended half-word at x[rs1] + imm.
States R122. -/
def Obligations.LhLoadsASignedHalfWord : Prop :=
  (∀ w : Word, w &&& 0x0000707F#32 = 0x00001003#32 → decode w = .ok (.lh (field w 7 5) (field w 15 5) (field w 20 12))) ∧
  ∀ (rd rs1 : RegIdx) (imm : BitVec 12) (s : State) (a : Word), s.effAddr rs1 imm = a →
      IsEffectiveAddress s rs1 imm a ∧
        (a.toNat % 2 = 0 → inRange s.regions a .half = true →
          ∃ t, exec (.lh rd rs1 imm) s = .next t ∧
            (t.readReg rd).toInt = (let h := ((byteIn s a.toNat).toNat + 256 * (byteIn s (a.toNat + 1)).toNat)
              if h < 32768 then (h : Int) else h - 65536) ∧
            SameRegsExcept s t rd ∧ SameBytes s t ∧ Advances s t) ∧
        (a.toNat % 2 ≠ 0 →
          exec (.lh rd rs1 imm) s = .next (faulted s .unalignedAccess (some (encode (.lh rd rs1 imm))))) ∧
        (a.toNat % 2 = 0 → inRange s.regions a .half = false →
          exec (.lh rd rs1 imm) s = .next (faulted s .outOfRangeAccess (some (encode (.lh rd rs1 imm)))))

/-- LW writes the word at x[rs1] + imm.
States R123. -/
def Obligations.LwLoadsAWord : Prop :=
  (∀ w : Word, w &&& 0x0000707F#32 = 0x00002003#32 → decode w = .ok (.lw (field w 7 5) (field w 15 5) (field w 20 12))) ∧
  ∀ (rd rs1 : RegIdx) (imm : BitVec 12) (s : State) (a : Word), s.effAddr rs1 imm = a →
      IsEffectiveAddress s rs1 imm a ∧
        (a.toNat % 4 = 0 → inRange s.regions a .word = true →
          ∃ t, exec (.lw rd rs1 imm) s = .next t ∧
            (t.readReg rd).toNat = (byteIn s a.toNat).toNat + 256 * (byteIn s (a.toNat + 1)).toNat +
              65536 * (byteIn s (a.toNat + 2)).toNat + 16777216 * (byteIn s (a.toNat + 3)).toNat ∧
            SameRegsExcept s t rd ∧ SameBytes s t ∧ Advances s t) ∧
        (a.toNat % 4 ≠ 0 →
          exec (.lw rd rs1 imm) s = .next (faulted s .unalignedAccess (some (encode (.lw rd rs1 imm))))) ∧
        (a.toNat % 4 = 0 → inRange s.regions a .word = false →
          exec (.lw rd rs1 imm) s = .next (faulted s .outOfRangeAccess (some (encode (.lw rd rs1 imm)))))

/-- LBU writes the zero-extended byte at x[rs1] + imm.
States R124. -/
def Obligations.LbuLoadsAnUnsignedByte : Prop :=
  (∀ w : Word, w &&& 0x0000707F#32 = 0x00004003#32 → decode w = .ok (.lbu (field w 7 5) (field w 15 5) (field w 20 12))) ∧
  ∀ (rd rs1 : RegIdx) (imm : BitVec 12) (s : State) (a : Word), s.effAddr rs1 imm = a →
      IsEffectiveAddress s rs1 imm a ∧
        (inRange s.regions a .byte = true →
          ∃ t, exec (.lbu rd rs1 imm) s = .next t ∧
            (t.readReg rd).toNat = (byteIn s a.toNat).toNat ∧
            SameRegsExcept s t rd ∧ SameBytes s t ∧ Advances s t) ∧
        (inRange s.regions a .byte = false →
          exec (.lbu rd rs1 imm) s = .next (faulted s .outOfRangeAccess (some (encode (.lbu rd rs1 imm)))))

/-- LHU writes the zero-extended half-word at x[rs1] + imm.
States R125. -/
def Obligations.LhuLoadsAnUnsignedHalfWord : Prop :=
  (∀ w : Word, w &&& 0x0000707F#32 = 0x00005003#32 → decode w = .ok (.lhu (field w 7 5) (field w 15 5) (field w 20 12))) ∧
  ∀ (rd rs1 : RegIdx) (imm : BitVec 12) (s : State) (a : Word), s.effAddr rs1 imm = a →
      IsEffectiveAddress s rs1 imm a ∧
        (a.toNat % 2 = 0 → inRange s.regions a .half = true →
          ∃ t, exec (.lhu rd rs1 imm) s = .next t ∧
            (t.readReg rd).toNat = (byteIn s a.toNat).toNat + 256 * (byteIn s (a.toNat + 1)).toNat ∧
            SameRegsExcept s t rd ∧ SameBytes s t ∧ Advances s t) ∧
        (a.toNat % 2 ≠ 0 →
          exec (.lhu rd rs1 imm) s = .next (faulted s .unalignedAccess (some (encode (.lhu rd rs1 imm))))) ∧
        (a.toNat % 2 = 0 → inRange s.regions a .half = false →
          exec (.lhu rd rs1 imm) s = .next (faulted s .outOfRangeAccess (some (encode (.lhu rd rs1 imm)))))

/-- SB stores the low byte of x[rs2] at x[rs1] + imm.
States R131. -/
def Obligations.SbStoresTheLowByte : Prop :=
  (∀ w : Word, w &&& 0x0000707F#32 = 0x00000023#32 → decode w = .ok (.sb (field w 15 5) (field w 20 5) (immSOf w))) ∧
  ∀ (rs1 rs2 : RegIdx) (imm : BitVec 12) (s : State) (a : Word), s.effAddr rs1 imm = a →
      IsEffectiveAddress s rs1 imm a ∧
        (inRange s.regions a .byte = true →
          ∃ t, exec (.sb rs1 rs2 imm) s = .next t ∧
            (byteIn t a.toNat).toNat = (s.readReg rs2).toNat % 256 ∧
            SameBytesOutside s t a.toNat 1 ∧ SameRegs s t ∧ Advances s t) ∧
        (inRange s.regions a .byte = false →
          exec (.sb rs1 rs2 imm) s = .next (faulted s .outOfRangeAccess (some (encode (.sb rs1 rs2 imm)))))

/-- SH stores the low half-word of x[rs2] at x[rs1] + imm.
States R132. -/
def Obligations.ShStoresTheLowHalfWord : Prop :=
  (∀ w : Word, w &&& 0x0000707F#32 = 0x00001023#32 → decode w = .ok (.sh (field w 15 5) (field w 20 5) (immSOf w))) ∧
  ∀ (rs1 rs2 : RegIdx) (imm : BitVec 12) (s : State) (a : Word), s.effAddr rs1 imm = a →
      IsEffectiveAddress s rs1 imm a ∧
        (a.toNat % 2 = 0 → inRange s.regions a .half = true →
          ∃ t, exec (.sh rs1 rs2 imm) s = .next t ∧
            (byteIn t a.toNat).toNat = (s.readReg rs2).toNat % 256 ∧
            (byteIn t (a.toNat + 1)).toNat = (s.readReg rs2).toNat / 256 % 256 ∧
            SameBytesOutside s t a.toNat 2 ∧ SameRegs s t ∧ Advances s t) ∧
        (a.toNat % 2 ≠ 0 →
          exec (.sh rs1 rs2 imm) s = .next (faulted s .unalignedAccess (some (encode (.sh rs1 rs2 imm))))) ∧
        (a.toNat % 2 = 0 → inRange s.regions a .half = false →
          exec (.sh rs1 rs2 imm) s = .next (faulted s .outOfRangeAccess (some (encode (.sh rs1 rs2 imm)))))

/-- SW stores x[rs2] at x[rs1] + imm.
States R133. -/
def Obligations.SwStoresTheWord : Prop :=
  (∀ w : Word, w &&& 0x0000707F#32 = 0x00002023#32 → decode w = .ok (.sw (field w 15 5) (field w 20 5) (immSOf w))) ∧
  ∀ (rs1 rs2 : RegIdx) (imm : BitVec 12) (s : State) (a : Word), s.effAddr rs1 imm = a →
      IsEffectiveAddress s rs1 imm a ∧
        (a.toNat % 4 = 0 → inRange s.regions a .word = true →
          ∃ t, exec (.sw rs1 rs2 imm) s = .next t ∧
            (byteIn t a.toNat).toNat = (s.readReg rs2).toNat % 256 ∧
            (byteIn t (a.toNat + 1)).toNat = (s.readReg rs2).toNat / 256 % 256 ∧
            (byteIn t (a.toNat + 2)).toNat = (s.readReg rs2).toNat / 65536 % 256 ∧
            (byteIn t (a.toNat + 3)).toNat = (s.readReg rs2).toNat / 16777216 % 256 ∧
            SameBytesOutside s t a.toNat 4 ∧ SameRegs s t ∧ Advances s t) ∧
        (a.toNat % 4 ≠ 0 →
          exec (.sw rs1 rs2 imm) s = .next (faulted s .unalignedAccess (some (encode (.sw rs1 rs2 imm))))) ∧
        (a.toNat % 4 = 0 → inRange s.regions a .word = false →
          exec (.sw rs1 rs2 imm) s = .next (faulted s .outOfRangeAccess (some (encode (.sw rs1 rs2 imm)))))

/-- ADDI writes x[rs1] + imm modulo 2^32.
States R141. -/
def Obligations.AddiAddsTheSignedImmediate : Prop :=
  (∀ w : Word, w &&& 0x0000707F#32 = 0x00000013#32 → decode w = .ok (.addi (field w 7 5) (field w 15 5) (field w 20 12))) ∧
  ∀ (rd rs1 : RegIdx) (imm : BitVec 12) (s : State), ∃ t, exec (.addi rd rs1 imm) s = .next t ∧
    ((t.readReg rd).toNat : Int) = ((s.readReg rs1).toNat + imm.toInt) % addressSpaceSize ∧
    SameRegsExcept s t rd ∧ SameBytes s t ∧ Advances s t

/-- SLLI writes x[rs1] shifted left by inst[24:20].
States R142. -/
def Obligations.SlliShiftsLeftByFiveBits : Prop :=
  (∀ w : Word, w &&& 0x0000707F#32 = 0x00001013#32 → decode w = .ok (.slli (field w 7 5) (field w 15 5) (field w 20 5))) ∧
  ∀ (rd rs1 : RegIdx) (shamt : BitVec 5) (s : State), ∃ t, exec (.slli rd rs1 shamt) s = .next t ∧
    (t.readReg rd).toNat = (s.readReg rs1).toNat * 2 ^ shamt.toNat % addressSpaceSize ∧
    SameRegsExcept s t rd ∧ SameBytes s t ∧ Advances s t

/-- SUBI writes x[rs1] - imm modulo 2^32.
States R143. -/
def Obligations.SubiSubtractsTheSignedImmediate : Prop :=
  (∀ w : Word, w &&& 0x0000707F#32 = 0x00002013#32 → decode w = .ok (.subi (field w 7 5) (field w 15 5) (field w 20 12))) ∧
  ∀ (rd rs1 : RegIdx) (imm : BitVec 12) (s : State), ∃ t, exec (.subi rd rs1 imm) s = .next t ∧
    ((t.readReg rd).toNat : Int) = ((s.readReg rs1).toNat - imm.toInt) % addressSpaceSize ∧
    SameRegsExcept s t rd ∧ SameBytes s t ∧ Advances s t

/-- ADD writes x[rs1] + x[rs2] modulo 2^32.
States R151. -/
def Obligations.AddAddsTwoRegisters : Prop :=
  (∀ w : Word, w &&& 0xFE00707F#32 = 0x00000033#32 → decode w = .ok (.add (field w 7 5) (field w 15 5) (field w 20 5))) ∧
  ∀ (rd rs1 rs2 : RegIdx) (s : State), ∃ t, exec (.add rd rs1 rs2) s = .next t ∧
    (t.readReg rd).toNat = ((s.readReg rs1).toNat + (s.readReg rs2).toNat) % addressSpaceSize ∧
    SameRegsExcept s t rd ∧ SameBytes s t ∧ Advances s t

/-- MUL writes the low 32 bits of the product, the same signed or unsigned.
States R152.
(The rule carries the spec's own decision D13.) -/
def Obligations.MulGivesTheLowHalfOfTheProduct : Prop :=
  (∀ w : Word, w &&& 0xFE00707F#32 = 0x02000033#32 → decode w = .ok (.mul (field w 7 5) (field w 15 5) (field w 20 5))) ∧
  ∀ (rd rs1 rs2 : RegIdx) (s : State), ∃ t, exec (.mul rd rs1 rs2) s = .next t ∧
    (t.readReg rd).toNat = (s.readReg rs1).toNat * (s.readReg rs2).toNat % addressSpaceSize ∧
    ((t.readReg rd).toNat : Int) = (s.readReg rs1).toInt * (s.readReg rs2).toInt % addressSpaceSize ∧
    SameRegsExcept s t rd ∧ SameBytes s t ∧ Advances s t

/-- SUB writes x[rs1] - x[rs2] modulo 2^32, whatever funct7 is.
States R153.
(The rule carries the spec's own decision D17.) -/
def Obligations.SubSubtractsTwoRegisters : Prop :=
  (∀ w : Word, w &&& 0x0000707F#32 = 0x00002033#32 → decode w = .ok (.sub (field w 7 5) (field w 15 5) (field w 20 5))) ∧
  ∀ (rd rs1 rs2 : RegIdx) (s : State), ∃ t, exec (.sub rd rs1 rs2) s = .next t ∧
    ((t.readReg rd).toNat : Int) = (((s.readReg rs1).toNat : Int) - (s.readReg rs2).toNat) % addressSpaceSize ∧
    SameRegsExcept s t rd ∧ SameBytes s t ∧ Advances s t

/-- LUI writes inst[31:12] followed by twelve zero bits.
States R160. -/
def Obligations.LuiSetsTheUpperTwentyBits : Prop :=
  (∀ w : Word, w &&& 0x0000007F#32 = 0x00000037#32 → decode w = .ok (.lui (field w 7 5) (field w 12 20))) ∧
  ∀ (rd : RegIdx) (imm : BitVec 20) (s : State), ∃ t, exec (.lui rd imm) s = .next t ∧
    (t.readReg rd).toNat = imm.toNat * 4096 ∧
    SameRegsExcept s t rd ∧ SameBytes s t ∧ Advances s t

/-- JAL writes pc + 4 to x[1] whatever rd is, and goes to pc + off_j.
States R166. -/
def Obligations.JalLinksToRegisterOne : Prop :=
  (∀ w : Word, w &&& 0x0000007F#32 = 0x0000006F#32 → decode w = .ok (.jal (immJOf w))) ∧
  ∀ (imm : BitVec 21) (s : State), ∃ t, exec (.jal imm) s = .next t ∧
    (t.readReg 1#5).toNat = (s.pc.toNat + 4) % addressSpaceSize ∧
    SameRegsExcept s t 1#5 ∧ SameBytes s t ∧ GoesTo s t imm.toInt ∧
    (t.pc.toNat % 4 ≠ 0 → fetch t = .error .unalignedAccess)

/-- BEQ branches exactly when all 32 bits are equal.
States R171. -/
def Obligations.BeqBranchesWhenEqual : Prop :=
  (∀ w : Word, w &&& 0x0000707F#32 = 0x00000063#32 → decode w = .ok (.beq (field w 15 5) (field w 20 5) (immBOf w))) ∧
  ∀ (rs1 rs2 : RegIdx) (imm : BitVec 13) (s : State), ∃ t, exec (.beq rs1 rs2 imm) s = .next t ∧
    SameRegs s t ∧ SameBytes s t ∧
    GoesTo s t (if s.readReg rs1 = s.readReg rs2 then imm.toInt else 4) ∧
    (t.pc.toNat % 4 ≠ 0 → fetch t = .error .unalignedAccess)

/-- BNE branches exactly when the registers differ.
States R172. -/
def Obligations.BneBranchesWhenNotEqual : Prop :=
  (∀ w : Word, w &&& 0x0000707F#32 = 0x00001063#32 → decode w = .ok (.bne (field w 15 5) (field w 20 5) (immBOf w))) ∧
  ∀ (rs1 rs2 : RegIdx) (imm : BitVec 13) (s : State), ∃ t, exec (.bne rs1 rs2 imm) s = .next t ∧
    SameRegs s t ∧ SameBytes s t ∧
    GoesTo s t (if s.readReg rs1 ≠ s.readReg rs2 then imm.toInt else 4) ∧
    (t.pc.toNat % 4 ≠ 0 → fetch t = .error .unalignedAccess)

/-- BLT branches exactly when x[rs1] is less, signed.
States R173. -/
def Obligations.BltBranchesWhenSignedLess : Prop :=
  (∀ w : Word, w &&& 0x0000707F#32 = 0x00004063#32 → decode w = .ok (.blt (field w 15 5) (field w 20 5) (immBOf w))) ∧
  ∀ (rs1 rs2 : RegIdx) (imm : BitVec 13) (s : State), ∃ t, exec (.blt rs1 rs2 imm) s = .next t ∧
    SameRegs s t ∧ SameBytes s t ∧
    GoesTo s t (if (s.readReg rs1).toInt < (s.readReg rs2).toInt then imm.toInt else 4) ∧
    (t.pc.toNat % 4 ≠ 0 → fetch t = .error .unalignedAccess)

/-- BGE branches exactly when BLT does not.
States R174. -/
def Obligations.BgeBranchesWhenSignedNotLess : Prop :=
  (∀ w : Word, w &&& 0x0000707F#32 = 0x00005063#32 → decode w = .ok (.bge (field w 15 5) (field w 20 5) (immBOf w))) ∧
  ∀ (rs1 rs2 : RegIdx) (imm : BitVec 13) (s : State), ∃ t, exec (.bge rs1 rs2 imm) s = .next t ∧
    SameRegs s t ∧ SameBytes s t ∧
    GoesTo s t (if ¬ (s.readReg rs1).toInt < (s.readReg rs2).toInt then imm.toInt else 4) ∧
    (t.pc.toNat % 4 ≠ 0 → fetch t = .error .unalignedAccess)

/-- BLTU branches exactly when x[rs1] is less, unsigned.
States R175. -/
def Obligations.BltuBranchesWhenUnsignedLess : Prop :=
  (∀ w : Word, w &&& 0x0000707F#32 = 0x00006063#32 → decode w = .ok (.bltu (field w 15 5) (field w 20 5) (immBOf w))) ∧
  ∀ (rs1 rs2 : RegIdx) (imm : BitVec 13) (s : State), ∃ t, exec (.bltu rs1 rs2 imm) s = .next t ∧
    SameRegs s t ∧ SameBytes s t ∧
    GoesTo s t (if (s.readReg rs1).toNat < (s.readReg rs2).toNat then imm.toInt else 4) ∧
    (t.pc.toNat % 4 ≠ 0 → fetch t = .error .unalignedAccess)

/-- BGEU branches exactly when BLTU does not.
States R176. -/
def Obligations.BgeuBranchesWhenUnsignedNotLess : Prop :=
  (∀ w : Word, w &&& 0x0000707F#32 = 0x00007063#32 → decode w = .ok (.bgeu (field w 15 5) (field w 20 5) (immBOf w))) ∧
  ∀ (rs1 rs2 : RegIdx) (imm : BitVec 13) (s : State), ∃ t, exec (.bgeu rs1 rs2 imm) s = .next t ∧
    SameRegs s t ∧ SameBytes s t ∧
    GoesTo s t (if ¬ (s.readReg rs1).toNat < (s.readReg rs2).toNat then imm.toInt else 4) ∧
    (t.pc.toNat % 4 ≠ 0 → fetch t = .error .unalignedAccess)

/-- A stored word loads back, and a stored byte loads back sign- and zero-extended.
States R62. -/
def Obligations.StoredValuesLoadBack : Prop :=
  (∀ (rs1 rs2 rd : RegIdx) (imm : BitVec 12) (s : State) (a : Word), s.effAddr rs1 imm = a →
    a.toNat % 4 = 0 → inRange s.regions a .word = true →
    ∃ t u, exec (.sw rs1 rs2 imm) s = .next t ∧ exec (.lw rd rs1 imm) t = .next u ∧
      u.readReg rd = s.readReg rs2) ∧
  (∀ (rs1 rs2 rd : RegIdx) (imm : BitVec 12) (s : State) (a : Word), s.effAddr rs1 imm = a →
    inRange s.regions a .byte = true →
    ∃ t u v, exec (.sb rs1 rs2 imm) s = .next t ∧
      exec (.lb rd rs1 imm) t = .next u ∧ (u.readReg rd).toInt = ((s.readReg rs2).setWidth 8).toInt ∧
      exec (.lbu rd rs1 imm) t = .next v ∧ (v.readReg rd).toNat = (s.readReg rs2).toNat % 256)

/-- A completed store is seen by a fetch of any of its bytes with nothing in between.
Derived from 20_memory.md R51, R55, R57.
(This is the spec's own inference from these rules.) -/
def Obligations.StoresAreSeenByTheNextFetch : Prop :=
  ∀ (i : Instr) (s t : State) (r : RegIdx) (a q : Word) (n : Width), storeSource i = some r →
    dataAccess s i = some (a, n) → checkAccess s.regions a n = .ok () → exec i s = .next t →
    q.toNat % 4 = 0 → inRange s.regions q .word = true →
    ∃ v, fetch { t with pc := q } = .ok v ∧
      ∀ k, k < 4 → v.toNat / 256 ^ k % 256 =
        if a.toNat ≤ q.toNat + k ∧ q.toNat + k < a.toNat + n.bytes
        then (s.readReg r).toNat / 256 ^ (q.toNat + k - a.toNat) % 256
        else (byteIn s (q.toNat + k)).toNat

/-- LUI then ADDI on one register gives (hi << 12) + sext(lo), and so any 32-bit constant.
Derived from 45_lui.md R160, R161, 43_alu_immediate.md R141.
(This is the spec's own inference from these rules.) -/
def Obligations.LuiThenAddiBuildsAnyConstant : Prop :=
  ∀ (rd : RegIdx) (s : State),
    (∀ (hi : BitVec 20) (lo : BitVec 12), ∃ t u, exec (.lui rd hi) s = .next t ∧
      exec (.addi rd rd lo) t = .next u ∧
      ((u.readReg rd).toNat : Int) = (hi.toNat * 4096 + lo.toInt) % addressSpaceSize) ∧
    (∀ c : Word, ∃ t u,
      exec (.lui rd (if c.getLsbD 11 then c.extractLsb' 12 20 + 1#20 else c.extractLsb' 12 20)) s = .next t ∧
      exec (.addi rd rd (c.extractLsb' 0 12)) t = .next u ∧ u.readReg rd = c)

/-- A register write is read back and leaves every other register alone, for register 0 as for any other.
States R22.
(The rule carries the spec's own decision D3.) -/
def Obligations.RegisterWritesPersistRegisterZeroIncluded : Prop :=
  ∀ (s : State) (i j : RegIdx) (v : Word),
    (s.writeReg i v).readReg j = (if j = i then v else s.readReg j) ∧
    s.writeReg i v = { s with regs := (s.writeReg i v).regs }

/-- No instruction changes a register other than its destination, or the region table.
Derived from 10_state.md R23, 20_memory.md R44, 60_exceptions.md R186. -/
def Obligations.InstructionsKeepOtherRegistersAndTheRegionTable : Prop :=
  ∀ (i : Instr) (s : State), ∃ t, exec i s = .next t ∧
    (∀ j : RegIdx, destReg i ≠ some j → t.readReg j = s.readReg j) ∧ t.regions = s.regions

/-- A step changes memory only when the word it runs is a store, and then only the stored bytes.
Derived from 20_memory.md R60, 10_state.md R33. -/
def Obligations.OnlyStoresChangeMemory : Prop :=
  ∀ (s t : State) (b : Nat), step s = .next t → byteIn t b ≠ byteIn s b →
    ∃ w i a n, s.status = .running ∧ fetch s = .ok w ∧ decode w = .ok i ∧ isStore i = true ∧
      dataAccess s i = some (a, n) ∧ a.toNat ≤ b ∧ b < a.toNat + n.bytes

/-- A step that faults changes only status and the fault record.
States R186.
(The rule carries the spec's own decision D9.) -/
def Obligations.FaultsArePrecise : Prop :=
  ∀ s t : State, s.status = .running → step s = .next t → t.status = .faulted →
    (∃ k inst, t = faulted s k inst) ∧ ∀ u, step t = .next u → u = t

/-- A step reports the first fault that applies: fetch alignment, fetch range, opcode, function code, data alignment, data range.
States R188.
(The rule carries the spec's own decision D11.) -/
def Obligations.FaultsAreReportedInTheStatedOrder : Prop :=
  ∀ s : State, s.status = .running → regionsWf s.regions →
    if s.pc.toNat % 4 ≠ 0 then step s = .next (faulted s .unalignedAccess none)
    else if inRange s.regions s.pc .word = false then step s = .next (faulted s .outOfRangeAccess none)
    else ∃ w, fetch s = .ok w ∧
      match decode w with
      | .error .unknownOpcode => step s = .next (faulted s .unknownOpcode (some w))
      | .error .unimplementedOperation => step s = .next (faulted s .unimplementedOperation (some w))
      | .ok i =>
        match dataAccess s i with
        | some (a, n) =>
          if a.toNat % n.bytes ≠ 0 then step s = .next (faulted s .unalignedAccess (some w))
          else if inRange s.regions a n = false then step s = .next (faulted s .outOfRangeAccess (some w))
          else ∃ t, step s = .next t ∧ t.status ≠ .faulted
        | none => ∃ t, step s = .next t ∧ t.status ≠ .faulted

/-- When the four bytes at pc decode to an instruction, the step is exec of that instruction.
Derived from 40_fetch_execute_step.md R102, R103, R105, R108. -/
def Obligations.StepRunsTheDecodedInstruction : Prop :=
  ∀ (s : State) (i : Instr), s.status = .running → regionsWf s.regions → s.pc.toNat % 4 = 0 →
    inRange s.regions s.pc .word = true →
    decodeBytes [byteIn s s.pc.toNat, byteIn s (s.pc.toNat + 1), byteIn s (s.pc.toNat + 2),
      byteIn s (s.pc.toNat + 3)] = .ok (i, []) →
    step s = exec i s

/-- A Halted or Faulted core does not change (that step answers the same state is the model's choice, log entry 7).
Derived from 40_fetch_execute_step.md R101, 10_state.md R26. -/
def Obligations.StoppedCoreDoesNotChange : Prop :=
  ∀ s : State, s.status = .halted ∨ s.status = .faulted → step s = .next s

/-- A step halts exactly when the instruction transfers control to its own address: JAL with offset 0 or a taken branch with offset 0.
Derived from 40_fetch_execute_step.md R106, R107.
(That these are the only two ways is the spec's own inference in R107.) -/
def Obligations.HaltsExactlyOnATransferToItself : Prop :=
  ∀ (i : Instr) (s t : State), s.status = .running → exec i s = .next t → t.status ≠ .faulted →
    (t.status = .halted ↔ t.pc = s.pc) ∧ (t.pc = s.pc ↔ selfTransfer s i)

/-- A step adds one to instret exactly when the instruction did not fault.
Derived from 10_state.md R27, 40_fetch_execute_step.md R106. -/
def Obligations.CounterCountsCompletedInstructions : Prop :=
  ∀ s t : State, s.status = .running → step s = .next t →
    t.instret = if t.status = .faulted then s.instret else s.instret + 1

/-- Registers, pc and memory after an instruction do not depend on status, instret or the fault record.
Derived from 10_state.md R20, 10_state.md R27, 10_state.md R30. -/
def Obligations.ProgramsCannotSeeTheBookkeeping : Prop :=
  ∀ (i : Instr) (s t s' t' : State), SameToPrograms s t → exec i s = .next s' → exec i t = .next t' →
    SameToPrograms s' t'

/-- A running core with well-formed regions always has a next state.
Derived from 70_reset_and_hazards.md R227, 20_memory.md R42. -/
def Obligations.RunningCoreAlwaysHasASuccessor : Prop :=
  ∀ s : State, s.status = .running → regionsWf s.regions → ∃ t, step s = .next t

/-- Every step keeps the invariant: canonical memory, only backed addresses listed, well-formed regions, fault record exactly when Faulted.
Derived from 10_state.md R28, R33, 20_memory.md R41, R42, R44.
(The canonical form of memory is the model's choice of how bytes are written down, DESIGN CHOICE, log entry 5.) -/
def Obligations.StepKeepsTheInvariant : Prop :=
  ∀ s t : State, s.Inv → step s = .next t → t.Inv ∧ t.regions = s.regions

/-- The reset state meets the invariant (its parameters are the model's choice, log entries 2 to 4).
Derived from 10_state.md R28, R32, 20_memory.md R42.
(The canonical form of memory is the model's choice of how bytes are written down, DESIGN CHOICE, log entry 5.) -/
def Obligations.ResetStateMeetsTheInvariant : Prop :=
  State.reset.Inv ∧ State.reset.PcEven

/-- Reset with any well-formed parameters gives a state that meets the invariant.
Derived from 20_memory.md R41, R42, 70_reset_and_hazards.md R211.
(The canonical form of memory is the model's choice of how bytes are written down, DESIGN CHOICE, log entry 5.) -/
def Obligations.BootedCoreMeetsTheInvariant : Prop :=
  ∀ (p : Params) (s : State), bootState p = some s → s.Inv

/-- Reset leaves every register, pc, memory, status, instret and fault at the value of the table.
Derived from 10_state.md R32, 70_reset_and_hazards.md R211.
(That instret is 0 and fault is empty is the spec's own inference in R32.) -/
def Obligations.ResetLeavesTheTabledValues : Prop :=
  ∀ (p : Params) (s : State), bootState p = some s →
    s.readReg 2#5 = p.stackTop ∧ (∀ j : RegIdx, j ≠ 2#5 → s.readReg j = 0x00000000#32) ∧
    s.pc = p.entryPoint ∧
    (∀ g ∈ p.regions, ∀ (k : Nat) (b : Byte), g.bytes[k]? = some b → byteIn s (g.base.toNat + k) = b) ∧
    s.status = .running ∧ s.instret = 0 ∧ s.fault = none

/-- Reset is released exactly with at least one region, none empty, none wrapping and no two overlapping.
States R42.
(The rule carries the spec's own decision D7.) -/
def Obligations.ResetIsRefusedForIllFormedRegions : Prop :=
  ∀ p : Params, (∃ s, bootState p = some s) ↔
    p.regions ≠ [] ∧ (∀ g ∈ p.regions, g.bytes ≠ []) ∧
    (∀ g ∈ p.regions, g.base.toNat + g.bytes.length ≤ addressSpaceSize) ∧
    (∀ (m n : Nat) (g h : Segment), m ≠ n → p.regions[m]? = some g → p.regions[n]? = some h →
      ¬ ∃ a, (g.base.toNat ≤ a ∧ a < g.base.toNat + g.bytes.length) ∧
        (h.base.toNat ≤ a ∧ a < h.base.toNat + h.bytes.length))

/-- From reset with the self-jump word at the entry point, one step halts with instret 1.
States R111. -/
def Obligations.SelfJumpHaltsAfterOneInstruction : Prop :=
  ∀ (p : Params) (s : State) (g : Segment) (k : Nat), bootState p = some s →
    p.entryPoint.toNat % 4 = 0 → g ∈ p.regions → p.entryPoint.toNat = g.base.toNat + k →
    g.bytes[k]? = some 0x6F#8 → g.bytes[k + 1]? = some 0x00#8 → g.bytes[k + 2]? = some 0x00#8 →
    g.bytes[k + 3]? = some 0x00#8 →
    ∃ t, step s = .next t ∧ t.readReg 1#5 = p.entryPoint + 4#32 ∧ t.pc = p.entryPoint ∧ t.instret = 1 ∧
      t.status = .halted ∧ t.result = some (.summary 1)

/-- An entry point that is misaligned or unbacked faults at the first step, not at reset.
Derived from 70_reset_and_hazards.md R212, 40_fetch_execute_step.md R102.
(This is the spec's own inference from these rules.) -/
def Obligations.BadEntryPointFaultsAtTheFirstStep : Prop :=
  ∀ (p : Params) (s : State), bootState p = some s →
    (∀ e, ∃ s', bootState { p with entryPoint := e } = some s') ∧
    (p.entryPoint.toNat % 4 ≠ 0 → ∃ t, step s = .next t ∧ t.status = .faulted ∧ t.instret = 0 ∧
      t.fault = some ⟨.unalignedAccess, p.entryPoint, none⟩) ∧
    (p.entryPoint.toNat % 4 = 0 →
      (¬ ∃ g ∈ p.regions, g.base.toNat ≤ p.entryPoint.toNat ∧
        p.entryPoint.toNat + 4 ≤ g.base.toNat + g.bytes.length) →
      ∃ t, step s = .next t ∧ t.status = .faulted ∧ t.instret = 0 ∧
        t.fault = some ⟨.outOfRangeAccess, p.entryPoint, none⟩)

/-- From an even pc every step leads to an even pc.
Derived from 46_jal.md R165, 30_encoding.md R79, R82. -/
def Obligations.StepKeepsThePcEven : Prop :=
  ∀ s t : State, s.PcEven → step s = .next t → t.PcEven

/-- The fault record always names the word at pc and a reason for which that word faults.
Derived from 60_exceptions.md R181 to R186, 10_state.md R28. -/
def Obligations.FaultRecordsAreExplained : Prop :=
  ∀ s t : State, (∀ f, s.fault = some f → s.status = .faulted ∧ RecordExplained s f) →
    step s = .next t → ∀ f, t.fault = some f → t.status = .faulted ∧ RecordExplained t f
end

