-- ==== Sys2Proof/Laws/State.lean ====
section
/-! SUPPORT. One lemma per field per update of the state. -/

namespace Sys2Proof.Machine

open Sys2Proof

variable (s : State) (i j : RegIdx) (v next : Word) (m : Memory) (k : Fault) (inst : Option Word)

/-! ## Register writes -/

@[simp] theorem State.writeReg_pc : (s.writeReg i v).pc = s.pc := rfl
@[simp] theorem State.writeReg_mem : (s.writeReg i v).mem = s.mem := rfl
@[simp] theorem State.writeReg_status : (s.writeReg i v).status = s.status := rfl
@[simp] theorem State.writeReg_instret : (s.writeReg i v).instret = s.instret := rfl
@[simp] theorem State.writeReg_fault : (s.writeReg i v).fault = s.fault := rfl
@[simp] theorem State.writeReg_regions : (s.writeReg i v).regions = s.regions := rfl
@[simp] theorem State.writeReg_nextPc : (s.writeReg i v).nextPc = s.nextPc := rfl

/-- A register read after a register write (spec R21, R22). -/
theorem State.readReg_writeReg :
    (s.writeReg i v).readReg j = if j = i then v else s.readReg j := by
  simp only [State.readReg, State.writeReg, Vector.getElem_set, BitVec.toNat_inj]
  by_cases h : j = i
  · simp [h]
  · simp [h, Ne.symm h]

@[simp] theorem State.readReg_writeReg_self : (s.writeReg i v).readReg i = v := by
  simp [State.readReg_writeReg]

/-! ## Other bytes of memory -/

@[simp] theorem State.setMem_regs : (s.setMem m).regs = s.regs := rfl
@[simp] theorem State.setMem_pc : (s.setMem m).pc = s.pc := rfl
@[simp] theorem State.setMem_mem : (s.setMem m).mem = m := rfl
@[simp] theorem State.setMem_status : (s.setMem m).status = s.status := rfl
@[simp] theorem State.setMem_instret : (s.setMem m).instret = s.instret := rfl
@[simp] theorem State.setMem_fault : (s.setMem m).fault = s.fault := rfl
@[simp] theorem State.setMem_regions : (s.setMem m).regions = s.regions := rfl
@[simp] theorem State.setMem_readReg : (s.setMem m).readReg j = s.readReg j := rfl
@[simp] theorem State.setMem_nextPc : (s.setMem m).nextPc = s.nextPc := rfl

/-! ## Commit -/

@[simp] theorem State.commit_regs : (s.commit next).regs = s.regs := rfl
@[simp] theorem State.commit_pc : (s.commit next).pc = next := rfl
@[simp] theorem State.commit_mem : (s.commit next).mem = s.mem := rfl
@[simp] theorem State.commit_instret : (s.commit next).instret = s.instret + 1 := rfl
@[simp] theorem State.commit_fault : (s.commit next).fault = s.fault := rfl
@[simp] theorem State.commit_regions : (s.commit next).regions = s.regions := rfl
@[simp] theorem State.commit_readReg : (s.commit next).readReg j = s.readReg j := rfl
theorem State.commit_status :
    (s.commit next).status = if next = s.pc then .halted else s.status := rfl

/-- `pc + 4` is never `pc` (spec R107). -/
theorem State.nextPc_ne_pc : s.nextPc ≠ s.pc := by
  simp [State.nextPc]

@[simp] theorem State.commit_nextPc_status : (s.commit s.nextPc).status = s.status := by
  simp [State.commit_status, State.nextPc_ne_pc]

/-! ## Faults -/

@[simp] theorem State.raiseFault_regs : (s.raiseFault k inst).regs = s.regs := rfl
@[simp] theorem State.raiseFault_pc : (s.raiseFault k inst).pc = s.pc := rfl
@[simp] theorem State.raiseFault_mem : (s.raiseFault k inst).mem = s.mem := rfl
@[simp] theorem State.raiseFault_status : (s.raiseFault k inst).status = .faulted := rfl
@[simp] theorem State.raiseFault_instret : (s.raiseFault k inst).instret = s.instret := rfl
@[simp] theorem State.raiseFault_fault :
    (s.raiseFault k inst).fault = some ⟨k, s.pc, inst⟩ := rfl
@[simp] theorem State.raiseFault_regions : (s.raiseFault k inst).regions = s.regions := rfl
@[simp] theorem State.raiseFault_readReg : (s.raiseFault k inst).readReg j = s.readReg j := rfl

end Sys2Proof.Machine
end

