-- ==== Sys2Proof/Laws/Memory.lean ====
section
/-! SUPPORT. The bytes of memory: a read after a write, and that every operation keeps the canonical form. -/

namespace Sys2Proof.Machine

open Sys2Proof

/-! ## Reads after writes of one byte -/

theorem Memory.byteAt_erase (m : Memory) (a b : Nat) :
    Memory.byteAt (Memory.erase m a) b = if b = a then Memory.unlisted else Memory.byteAt m b := by
  induction m with
  | nil => simp [Memory.erase, Memory.byteAt]
  | cons c m ih =>
    obtain ⟨k, v⟩ := c
    by_cases hk : k = a
    · subst hk
      by_cases hb : b = k
      · subst hb; simpa [Memory.erase] using ih
      · simp [Memory.erase, ih, hb, Memory.byteAt, Ne.symm hb]
    · by_cases hb : k = b
      · subst hb; simp [Memory.erase, Memory.byteAt, hk]
      · simp [Memory.erase, Memory.byteAt, hk, hb, ih]

theorem Memory.byteAt_insert (m : Memory) (a b : Nat) (v : Byte) :
    Memory.byteAt (Memory.insert m a v) b = if b = a then v else Memory.byteAt m b := by
  induction m with
  | nil => simp [Memory.insert, Memory.byteAt, eq_comm]
  | cons c m ih =>
    obtain ⟨k, w⟩ := c
    simp only [Memory.insert]
    split
    · simp [Memory.byteAt, eq_comm]
    · split
      · rename_i h; subst h
        by_cases hb : b = a
        · simp [Memory.byteAt, hb]
        · simp [Memory.byteAt, hb, Ne.symm hb]
      · rename_i h
        by_cases hb : k = b
        · subst hb; simp [Memory.byteAt, Ne.symm h]
        · simp [Memory.byteAt, hb, ih]

/-- A read of one byte after a write of one byte. -/
theorem Memory.byteAt_setByte (m : Memory) (a b : Nat) (v : Byte) :
    Memory.byteAt (Memory.setByte m a v) b = if b = a then v else Memory.byteAt m b := by
  unfold Memory.setByte
  split
  · rename_i h; simp [Memory.byteAt_erase, h]
  · exact Memory.byteAt_insert m a b v

/-! ## The canonical form -/

theorem Memory.mem_erase {m : Memory} {a : Nat} {c : Host.Cell} (h : c ∈ Memory.erase m a) :
    c ∈ m ∧ c.1 ≠ a := by
  induction m with
  | nil => simp [Memory.erase] at h
  | cons d m ih =>
    obtain ⟨k, v⟩ := d
    simp only [Memory.erase] at h
    split at h
    · exact ⟨List.mem_cons_of_mem _ (ih h).1, (ih h).2⟩
    · rename_i hk
      rcases List.mem_cons.mp h with rfl | h
      · exact ⟨List.mem_cons_self, hk⟩
      · exact ⟨List.mem_cons_of_mem _ (ih h).1, (ih h).2⟩

theorem Memory.mem_insert {m : Memory} {a : Nat} {v : Byte} {c : Host.Cell}
    (h : c ∈ Memory.insert m a v) : c = (a, v) ∨ c ∈ m := by
  induction m with
  | nil => simpa [Memory.insert] using h
  | cons d m ih =>
    obtain ⟨k, w⟩ := d
    simp only [Memory.insert] at h
    split at h
    · simpa using h
    · split at h
      · rcases List.mem_cons.mp h with h | h
        · exact .inl h
        · exact .inr (List.mem_cons_of_mem _ h)
      · rcases List.mem_cons.mp h with h | h
        · exact .inr (by simp [h])
        · rcases ih h with h | h
          · exact .inl h
          · exact .inr (List.mem_cons_of_mem _ h)

/-- Where a listed address of a written memory comes from. -/
theorem Memory.mem_setByte {m : Memory} {a : Nat} {v : Byte} {c : Host.Cell}
    (h : c ∈ Memory.setByte m a v) : c.1 = a ∨ c ∈ m := by
  unfold Memory.setByte at h
  split at h
  · exact .inr (Memory.mem_erase h).1
  · rcases Memory.mem_insert h with rfl | h
    · exact .inl rfl
    · exact .inr h

theorem Memory.sorted_erase {m : Memory} (h : m.Pairwise (fun c d => c.1 < d.1)) (a : Nat) :
    (Memory.erase m a).Pairwise (fun c d => c.1 < d.1) := by
  induction m with
  | nil => simp [Memory.erase]
  | cons d m ih =>
    obtain ⟨k, v⟩ := d
    rw [List.pairwise_cons] at h
    simp only [Memory.erase]
    split
    · exact ih h.2
    · exact List.pairwise_cons.mpr ⟨fun c hc => h.1 c (Memory.mem_erase hc).1, ih h.2⟩

theorem Memory.sorted_insert {m : Memory} (h : m.Pairwise (fun c d => c.1 < d.1)) (a : Nat) (v : Byte) :
    (Memory.insert m a v).Pairwise (fun c d => c.1 < d.1) := by
  induction m with
  | nil => simp [Memory.insert]
  | cons d m ih =>
    obtain ⟨k, w⟩ := d
    have hc := List.pairwise_cons.mp h
    simp only [Memory.insert]
    split
    · rename_i hlt
      refine List.pairwise_cons.mpr ⟨fun c hm => ?_, h⟩
      rcases List.mem_cons.mp hm with rfl | hm
      · exact hlt
      · exact Nat.lt_trans hlt (hc.1 c hm)
    · split
      · rename_i heq; subst heq
        exact List.pairwise_cons.mpr ⟨hc.1, hc.2⟩
      · rename_i h1 h2
        refine List.pairwise_cons.mpr ⟨fun c hm => ?_, ih hc.2⟩
        rcases Memory.mem_insert hm with rfl | hm
        · show k < a
          omega
        · exact hc.1 c hm

/-- A write of one byte keeps the canonical form. -/
theorem Memory.wf_setByte {m : Memory} (h : Memory.wf m) (a : Nat) (v : Byte) :
    Memory.wf (Memory.setByte m a v) := by
  unfold Memory.setByte
  split
  · exact ⟨Memory.sorted_erase h.1 a, fun c hc => h.2 c (Memory.mem_erase hc).1⟩
  · rename_i hv
    refine ⟨Memory.sorted_insert h.1 a v, fun c hc => ?_⟩
    rcases Memory.mem_insert hc with rfl | hc
    · exact hv
    · exact h.2 c hc

theorem Memory.byteAt_of_lt {m : Memory} {a : Nat} (h : ∀ c ∈ m, a < c.1) :
    Memory.byteAt m a = Memory.unlisted := by
  induction m with
  | nil => rfl
  | cons d m ih =>
    obtain ⟨k, w⟩ := d
    have hk : a < k := h (k, w) List.mem_cons_self
    have hne : ¬ k = a := by omega
    simp only [Memory.byteAt, hne, if_false]
    exact ih fun c hc => h c (List.mem_cons_of_mem _ hc)

/-- Canonical memories that read alike are equal data. -/
theorem Memory.wf_ext {m n : Memory} (hm : Memory.wf m) (hn : Memory.wf n)
    (h : ∀ a, Memory.byteAt m a = Memory.byteAt n a) : m = n := by
  induction m generalizing n with
  | nil =>
    cases n with
    | nil => rfl
    | cons d n =>
      have := h d.1
      simp [Memory.byteAt] at this
      exact absurd this.symm (hn.2 d List.mem_cons_self)
  | cons c m ih =>
    obtain ⟨k, v⟩ := c
    have hmc := List.pairwise_cons.mp hm.1
    have hkv : v ≠ Memory.unlisted := hm.2 (k, v) List.mem_cons_self
    cases n with
    | nil =>
      have := h k
      simp [Memory.byteAt] at this
      exact absurd this hkv
    | cons d n =>
      obtain ⟨l, w⟩ := d
      have hnc := List.pairwise_cons.mp hn.1
      have hlw : w ≠ Memory.unlisted := hn.2 (l, w) List.mem_cons_self
      have hkl : k = l := by
        rcases Nat.lt_trichotomy k l with hlt | heq | hgt
        · have hk := h k
          rw [Memory.byteAt_of_lt (m := (l, w) :: n)] at hk
          · simp [Memory.byteAt] at hk
            exact absurd hk hkv
          · intro c hc
            rcases List.mem_cons.mp hc with rfl | hc
            · exact hlt
            · exact Nat.lt_trans hlt (hnc.1 c hc)
        · exact heq
        · have hl := h l
          rw [Memory.byteAt_of_lt (m := (k, v) :: m)] at hl
          · simp [Memory.byteAt] at hl
            exact absurd hl.symm hlw
          · intro c hc
            rcases List.mem_cons.mp hc with rfl | hc
            · exact hgt
            · exact Nat.lt_trans hgt (hmc.1 c hc)
      subst hkl
      have hvw : v = w := by simpa [Memory.byteAt] using h k
      subst hvw
      congr 1
      refine ih ⟨hmc.2, fun c hc => hm.2 c (List.mem_cons_of_mem _ hc)⟩
        ⟨hnc.2, fun c hc => hn.2 c (List.mem_cons_of_mem _ hc)⟩ fun a => ?_
      by_cases ha : k = a
      · subst ha
        rw [Memory.byteAt_of_lt fun c hc => hmc.1 c hc, Memory.byteAt_of_lt fun c hc => hnc.1 c hc]
      · simpa [Memory.byteAt, ha] using h a

/-! ## Writes of several bytes -/

/-- A read of one byte after a write of `n`. -/
theorem Memory.byteAt_writeBytes (m : Memory) (a : Nat) (v : Word) (k n b : Nat) :
    Memory.byteAt (Memory.writeBytes m a v k n) b =
      if a + k ≤ b ∧ b < a + k + n then byteOf v (b - a) else Memory.byteAt m b := by
  induction n generalizing m k with
  | zero =>
    have : ¬ (a + k ≤ b ∧ b < a + k + 0) := by omega
    simp only [Memory.writeBytes, this, if_false]
  | succ n ih =>
    rw [Memory.writeBytes, ih, Memory.byteAt_setByte]
    by_cases h1 : b = a + k
    · subst h1
      have h2 : ¬ (a + (k + 1) ≤ a + k ∧ a + k < a + (k + 1) + n) := by omega
      have h3 : a + k ≤ a + k ∧ a + k < a + k + (n + 1) := by omega
      rw [if_neg h2, if_pos rfl, if_pos h3, Nat.add_sub_cancel_left]
    · by_cases h2 : a + (k + 1) ≤ b ∧ b < a + (k + 1) + n
      · have h3 : a + k ≤ b ∧ b < a + k + (n + 1) := by omega
        rw [if_pos h2, if_pos h3]
      · have h3 : ¬ (a + k ≤ b ∧ b < a + k + (n + 1)) := by omega
        rw [if_neg h2, if_neg h1, if_neg h3]

theorem Memory.wf_writeBytes {m : Memory} (h : Memory.wf m) (a : Nat) (v : Word) (k n : Nat) :
    Memory.wf (Memory.writeBytes m a v k n) := by
  induction n generalizing m k with
  | zero => exact h
  | succ n ih => exact ih (Memory.wf_setByte h _ _) (k + 1)

theorem Memory.mem_writeBytes {m : Memory} {a : Nat} {v : Word} {k n : Nat} {c : Host.Cell}
    (h : c ∈ Memory.writeBytes m a v k n) : (a + k ≤ c.1 ∧ c.1 < a + k + n) ∨ c ∈ m := by
  induction n generalizing m k with
  | zero => exact .inr h
  | succ n ih =>
    rcases ih h with h | h
    · exact .inl (by omega)
    · rcases Memory.mem_setByte h with h | h
      · exact .inl (by omega)
      · exact .inr h

/-! ## Reads of several bytes -/

/-- A read of `n` bytes depends on these bytes alone. -/
theorem Memory.readBytes_congr {m m' : Memory} {a n : Nat}
    (h : ∀ b, a ≤ b → b < a + n → Memory.byteAt m b = Memory.byteAt m' b) :
    Memory.readBytes m a n = Memory.readBytes m' a n := by
  induction n generalizing a with
  | zero => rfl
  | succ n ih =>
    rw [Memory.readBytes, Memory.readBytes, h a (by omega) (by omega), ih fun b h1 h2 => h b (by omega) (by omega)]

theorem Memory.readBytes_one (m : Memory) (a : Nat) :
    Memory.readBytes m a 1 = (Memory.byteAt m a).toNat := by
  simp [Memory.readBytes]

theorem Memory.readBytes_two (m : Memory) (a : Nat) :
    Memory.readBytes m a 2 = (Memory.byteAt m a).toNat + 256 * (Memory.byteAt m (a + 1)).toNat := by
  simp [Memory.readBytes]

theorem Memory.readBytes_four (m : Memory) (a : Nat) :
    Memory.readBytes m a 4 = (Memory.byteAt m a).toNat + 256 * (Memory.byteAt m (a + 1)).toNat +
      65536 * (Memory.byteAt m (a + 2)).toNat + 16777216 * (Memory.byteAt m (a + 3)).toNat := by
  simp only [Memory.readBytes, Nat.add_assoc, Nat.reduceAdd]
  omega

theorem Memory.readBytes_lt (m : Memory) (a n : Nat) : Memory.readBytes m a n < 256 ^ n := by
  induction n generalizing a with
  | zero => simp [Memory.readBytes]
  | succ n ih =>
    have h1 := (Memory.byteAt m a).isLt
    have h2 := ih (a + 1)
    rw [Memory.readBytes, Nat.pow_succ]
    omega

theorem byteOf_toNat (v : Word) (k : Nat) : (byteOf v k).toNat = v.toNat / 256 ^ k % 256 := by
  rw [byteOf, BitVec.extractLsb'_toNat, Nat.shiftRight_eq_div_pow, Nat.pow_mul]

/-! ## Loading the image -/

theorem Memory.wf_loadBytes {m : Memory} (h : Memory.wf m) (a : Nat) (bs : List Byte) :
    Memory.wf (Memory.loadBytes m a bs) := by
  induction bs generalizing m a with
  | nil => exact h
  | cons b bs ih => exact ih (Memory.wf_setByte h a b) (a + 1)

theorem Memory.wf_loadSegments {m : Memory} (h : Memory.wf m) (gs : List Segment) :
    Memory.wf (Memory.loadSegments m gs) := by
  induction gs generalizing m with
  | nil => exact h
  | cons g gs ih => exact ih (Memory.wf_loadBytes h _ _)

/-- A read of one byte after bytes were loaded. -/
theorem Memory.byteAt_loadBytes (m : Memory) (a b : Nat) (bs : List Byte) :
    Memory.byteAt (Memory.loadBytes m a bs) b =
      if a ≤ b ∧ b < a + bs.length then bs.getD (b - a) Memory.unlisted else Memory.byteAt m b := by
  induction bs generalizing m a with
  | nil =>
    have : ¬ (a ≤ b ∧ b < a + ([] : List Byte).length) := by simp
    rw [if_neg this, Memory.loadBytes]
  | cons x bs ih =>
    rw [Memory.loadBytes, ih, Memory.byteAt_setByte, List.length_cons]
    by_cases h1 : b = a
    · subst h1
      have h2 : ¬ (b + 1 ≤ b ∧ b < b + 1 + bs.length) := by omega
      have h3 : b ≤ b ∧ b < b + (bs.length + 1) := by omega
      rw [if_neg h2, if_pos rfl, if_pos h3, Nat.sub_self, List.getD_cons_zero]
    · by_cases h2 : a + 1 ≤ b ∧ b < a + 1 + bs.length
      · have h3 : a ≤ b ∧ b < a + (bs.length + 1) := by omega
        have h4 : b - a = (b - (a + 1)) + 1 := by omega
        rw [if_pos h2, if_pos h3, h4, List.getD_cons_succ]
      · have h3 : ¬ (a ≤ b ∧ b < a + (bs.length + 1)) := by omega
        rw [if_neg h2, if_neg h1, if_neg h3]

theorem Memory.mem_loadBytes {m : Memory} {a : Nat} {bs : List Byte} {c : Host.Cell}
    (h : c ∈ Memory.loadBytes m a bs) : (a ≤ c.1 ∧ c.1 < a + bs.length) ∨ c ∈ m := by
  induction bs generalizing m a with
  | nil => exact .inr h
  | cons b bs ih =>
    rw [List.length_cons]
    rcases ih h with h | h
    · exact .inl (by omega)
    · rcases Memory.mem_setByte h with h | h
      · exact .inl (by omega)
      · exact .inr h

/-- Only addresses of segments are listed by loading segments. -/
theorem Memory.mem_loadSegments {m : Memory} {gs : List Segment} {c : Host.Cell}
    (h : c ∈ Memory.loadSegments m gs) : (∃ g ∈ gs, (segmentRegion g).covers c.1) ∨ c ∈ m := by
  induction gs generalizing m with
  | nil => exact .inr h
  | cons g gs ih =>
    rcases ih h with ⟨g', hg, hc⟩ | h
    · exact .inl ⟨g', List.mem_cons_of_mem _ hg, hc⟩
    · rcases Memory.mem_loadBytes h with h | h
      · exact .inl ⟨g, List.mem_cons_self, h⟩
      · exact .inr h

/-- Segments that do not cover an address leave its byte alone. -/
theorem Memory.byteAt_loadSegments_of_not_covered {m : Memory} {gs : List Segment} {a : Nat}
    (h : ∀ g ∈ gs, ¬ (segmentRegion g).covers a) :
    Memory.byteAt (Memory.loadSegments m gs) a = Memory.byteAt m a := by
  induction gs generalizing m with
  | nil => rfl
  | cons g gs ih =>
    rw [Memory.loadSegments, ih fun g' hg => h g' (List.mem_cons_of_mem _ hg), Memory.byteAt_loadBytes]
    exact if_neg (h g List.mem_cons_self)

/-- The bytes of a segment are there after loading, where no two segments back a common address. -/
theorem Memory.byteAt_loadSegments {m : Memory} {gs : List Segment}
    (h : (gs.map segmentRegion).Pairwise Region.disjoint) {g : Segment} (hg : g ∈ gs) {k : Nat} {b : Byte}
    (hb : g.bytes[k]? = some b) : Memory.byteAt (Memory.loadSegments m gs) (g.base.toNat + k) = b := by
  induction gs generalizing m with
  | nil => cases hg
  | cons x xs ih =>
    rw [List.map_cons, List.pairwise_cons] at h
    obtain ⟨hk, -⟩ := List.getElem?_eq_some_iff.mp hb
    rw [Memory.loadSegments]
    rcases List.mem_cons.mp hg with rfl | hg
    · rw [Memory.byteAt_loadSegments_of_not_covered, Memory.byteAt_loadBytes, if_pos (by omega),
        Nat.add_sub_cancel_left, List.getD_eq_getElem?_getD, hb]
      · rfl
      · intro q hq hc
        have h1 : (segmentRegion q).base.toNat ≤ g.base.toNat + k := hc.1
        have h2 : g.base.toNat + k < (segmentRegion q).stop := hc.2
        have h3 : (segmentRegion g).stop = g.base.toNat + g.bytes.length := rfl
        have h4 : (segmentRegion g).base = g.base := rfl
        rcases h.1 _ (List.mem_map_of_mem hq) with h | h
        · omega
        · rw [h4] at h
          omega
    · exact ih h.2 hg

/-- Loading bytes of value 0 into empty memory lists nothing. -/
theorem Memory.loadBytes_zeros (n a : Nat) :
    Memory.loadBytes [] a (List.replicate n 0#8) = [] := by
  induction n generalizing a with
  | zero => rfl
  | succ n ih => exact ih (a + 1)

end Sys2Proof.Machine
end

