-- ==== Sys2Proof/Laws/Access.lean ====
section
/-! SUPPORT. What the regions, the access check and the access primitives can do. -/

namespace Sys2Proof.Machine

open Sys2Proof

/-! ## Regions -/

/-- A region found for an address is one of the table and covers it. -/
theorem regionOf_some {rs : List Region} {a : Nat} {r : Region} (h : regionOf rs a = some r) :
    r ∈ rs ∧ r.covers a :=
  ⟨List.mem_of_find?_eq_some h, by simpa using List.find?_some h⟩

/-- No two regions of a well-formed table cover one address. -/
theorem covers_unique {rs : List Region} (h : rs.Pairwise Region.disjoint) {r q : Region} {a : Nat}
    (hr : r ∈ rs) (hq : q ∈ rs) (hra : r.covers a) (hqa : q.covers a) : r = q := by
  induction rs with
  | nil => simp at hr
  | cons x rs ih =>
    have hx := List.pairwise_cons.mp h
    rcases List.mem_cons.mp hr with hr1 | hr1 <;> rcases List.mem_cons.mp hq with hq1 | hq1
    · rw [hr1, hq1]
    · have := hx.1 q hq1
      subst hr1
      exact absurd this (by omega)
    · have := hx.1 r hr1
      subst hq1
      exact absurd this (by omega)
    · exact ih hx.2 hr1 hq1

/-- In a well-formed table the region that covers an address is the one found for it. -/
theorem regionOf_eq {rs : List Region} (h : regionsWf rs) {r : Region} {a : Nat} (hr : r ∈ rs)
    (ha : r.covers a) : regionOf rs a = some r := by
  cases hf : regionOf rs a with
  | none =>
    have := List.find?_eq_none.mp hf r hr
    simp [ha] at this
  | some q =>
    have hq := regionOf_some hf
    rw [covers_unique h.2.2 hq.1 hr hq.2 ha]

/-- An access in range lies inside one region. -/
theorem inRange_covers {rs : List Region} {a : Word} {w : Width} (h : inRange rs a w = true) :
    ∃ r ∈ rs, r.base.toNat ≤ a.toNat ∧ a.toNat + w.bytes ≤ r.stop := by
  unfold inRange at h
  split at h
  · simp at h
  · rename_i r hr
    exact ⟨r, (regionOf_some hr).1, (regionOf_some hr).2.1, by simpa using h⟩

theorem Width.bytes_pos (w : Width) : 1 ≤ w.bytes := by cases w <;> decide

/-- In a well-formed table an access inside one region is in range. -/
theorem inRange_of_inside {rs : List Region} (h : regionsWf rs) {a : Word} {w : Width} {r : Region}
    (hr : r ∈ rs) (h1 : r.base.toNat ≤ a.toNat) (h2 : a.toNat + w.bytes ≤ r.stop) :
    inRange rs a w = true := by
  have hc : r.covers a.toNat := ⟨h1, by have := w.bytes_pos; omega⟩
  simp [inRange, regionOf_eq h hr hc, h2]

/-! ## The access check -/

theorem checkAccess_ok {rs : List Region} {a : Word} {w : Width} :
    checkAccess rs a w = .ok () ↔ a.toNat % w.bytes = 0 ∧ inRange rs a w = true := by
  by_cases h : a.toNat % w.bytes = 0
  · cases hr : inRange rs a w <;> simp [checkAccess, aligned, h, hr]
  · simp [checkAccess, aligned, h]

theorem checkAccess_unaligned {rs : List Region} {a : Word} {w : Width} (h : a.toNat % w.bytes ≠ 0) :
    checkAccess rs a w = .error .unalignedAccess := by
  simp [checkAccess, aligned, h]

theorem checkAccess_outOfRange {rs : List Region} {a : Word} {w : Width} (h : a.toNat % w.bytes = 0)
    (hr : inRange rs a w = false) : checkAccess rs a w = .error .outOfRangeAccess := by
  simp [checkAccess, aligned, h, hr]

/-- The three answers of the access check. -/
theorem checkAccess_cases (rs : List Region) (a : Word) (w : Width) :
    (a.toNat % w.bytes ≠ 0 ∧ checkAccess rs a w = .error .unalignedAccess) ∨
    (a.toNat % w.bytes = 0 ∧ inRange rs a w = false ∧ checkAccess rs a w = .error .outOfRangeAccess) ∨
    (a.toNat % w.bytes = 0 ∧ inRange rs a w = true ∧ checkAccess rs a w = .ok ()) := by
  by_cases h : a.toNat % w.bytes = 0
  · cases hr : inRange rs a w
    · exact .inr (.inl ⟨h, rfl, checkAccess_outOfRange h hr⟩)
    · exact .inr (.inr ⟨h, rfl, checkAccess_ok.mpr ⟨h, hr⟩⟩)
  · exact .inl ⟨h, checkAccess_unaligned h⟩

/-! ## The access primitives -/

theorem memRead_error {s : State} {a : Word} {w : Width} {k : Fault} :
    memRead s a w = .error k ↔ checkAccess s.regions a w = .error k := by
  unfold memRead
  split <;> simp_all

theorem memRead_ok {s : State} {a : Word} {w : Width} (h : checkAccess s.regions a w = .ok ()) :
    memRead s a w = .ok (BitVec.ofNat 32 (Memory.readBytes s.mem a.toNat w.bytes)) := by
  simp [memRead, h]

theorem memWrite_error {s : State} {a : Word} {w : Width} {v : Word} {k : Fault} :
    memWrite s a w v = .error k ↔ checkAccess s.regions a w = .error k := by
  unfold memWrite
  split <;> simp_all

theorem memWrite_ok {s : State} {a : Word} {w : Width} {v : Word}
    (h : checkAccess s.regions a w = .ok ()) :
    memWrite s a w v = .ok (s.setMem (Memory.writeBytes s.mem a.toNat v 0 w.bytes)) := by
  simp [memWrite, h]

/-- All that a memory write can do. -/
theorem memWrite_cases {s t : State} {a : Word} {w : Width} {v : Word} (h : memWrite s a w v = .ok t) :
    checkAccess s.regions a w = .ok () ∧
      t = s.setMem (Memory.writeBytes s.mem a.toNat v 0 w.bytes) := by
  unfold memWrite at h
  split at h
  · simp at h
  · rename_i hc
    exact ⟨hc, by simpa [eq_comm] using h⟩

/-- The number that a read gives fits its width, so no bit of it is lost. -/
theorem readBytes_width_lt (m : Memory) (a : Nat) (w : Width) :
    Memory.readBytes m a w.bytes < 2 ^ 32 := by
  have h := Memory.readBytes_lt m a w.bytes
  cases w <;> simp [Width.bytes] at h ⊢ <;> omega

/-- A fetch looks at `pc`, memory and the region table alone. -/
theorem fetch_congr {s t : State} (hp : t.pc = s.pc) (hm : t.mem = s.mem) (hr : t.regions = s.regions) :
    fetch t = fetch s := by
  unfold fetch memRead
  rw [hp, hm, hr]

end Sys2Proof.Machine
end

