-- ==== Sys2Proof/Laws/Decode.lean ====
section
/-! SUPPORT. Fields and encoders as numbers, the fields of an encoded word, and what the decoder reads from a
word of a given opcode and function code. -/

namespace Sys2Proof

/-! ## Fields as numbers -/

theorem toNat_append_eq {n m : Nat} (x : BitVec n) (y : BitVec m) :
    (x ++ y).toNat = x.toNat * 2 ^ m + y.toNat := by
  rw [BitVec.toNat_append, ← Nat.shiftLeft_add_eq_or_of_lt y.isLt, Nat.shiftLeft_eq]

theorem field_toNat (w : Word) (lsb len : Nat) :
    (field w lsb len).toNat = w.toNat / 2 ^ lsb % 2 ^ len := by
  rw [field, BitVec.extractLsb'_toNat, Nat.shiftRight_eq_div_pow]

theorem extract_toNat {n : Nat} (v : BitVec n) (lsb len : Nat) :
    (v.extractLsb' lsb len).toNat = v.toNat / 2 ^ lsb % 2 ^ len := by
  rw [BitVec.extractLsb'_toNat, Nat.shiftRight_eq_div_pow]

/-- `imm_s` as a number (spec R78). -/
theorem immSOf_toNat (w : Word) :
    (immSOf w).toNat = w.toNat / 2 ^ 25 % 2 ^ 7 * 32 + w.toNat / 2 ^ 7 % 2 ^ 5 :=
  (toNat_append_eq (field w 25 7) (field w 7 5)).trans (by rw [field_toNat, field_toNat]; omega)

/-- `imm_b` as a number (spec R79). -/
theorem immBOf_toNat (w : Word) :
    (immBOf w).toNat = w.toNat / 2 ^ 31 % 2 ^ 1 * 4096 + w.toNat / 2 ^ 7 % 2 ^ 1 * 2048 +
      w.toNat / 2 ^ 25 % 2 ^ 6 * 32 + w.toNat / 2 ^ 8 % 2 ^ 4 * 2 :=
  (toNat_append_eq (field w 31 1 ++ field w 7 1 ++ field w 25 6 ++ field w 8 4) 0#1).trans (by
    simp only [toNat_append_eq, field_toNat, BitVec.toNat_ofNat, Nat.reducePow]
    omega)

/-- `imm_j` as a number (spec R81). -/
theorem immJOf_toNat (w : Word) :
    (immJOf w).toNat = w.toNat / 2 ^ 31 % 2 ^ 1 * 1048576 + w.toNat / 2 ^ 12 % 2 ^ 8 * 4096 +
      w.toNat / 2 ^ 20 % 2 ^ 1 * 2048 + w.toNat / 2 ^ 21 % 2 ^ 10 * 2 :=
  (toNat_append_eq (field w 31 1 ++ field w 12 8 ++ field w 20 1 ++ field w 21 10) 0#1).trans (by
    simp only [toNat_append_eq, field_toNat, BitVec.toNat_ofNat, Nat.reducePow]
    omega)

/-! ## Encoded words as numbers -/

theorem encodeR_toNat (f7 rs2 rs1 f3 rd op) : (encodeR f7 rs2 rs1 f3 rd op).toNat =
    f7.toNat * 33554432 + rs2.toNat * 1048576 + rs1.toNat * 32768 + f3.toNat * 4096 + rd.toNat * 128 +
      op.toNat :=
  (toNat_append_eq (f7 ++ rs2 ++ rs1 ++ f3 ++ rd) op).trans (by simp only [toNat_append_eq]; omega)

theorem encodeI_toNat (imm rs1 f3 rd op) : (encodeI imm rs1 f3 rd op).toNat =
    imm.toNat * 1048576 + rs1.toNat * 32768 + f3.toNat * 4096 + rd.toNat * 128 + op.toNat :=
  (toNat_append_eq (imm ++ rs1 ++ f3 ++ rd) op).trans (by simp only [toNat_append_eq]; omega)

theorem encodeS_toNat (imm rs2 rs1 f3 op) : (encodeS imm rs2 rs1 f3 op).toNat =
    imm.toNat / 32 * 33554432 + rs2.toNat * 1048576 + rs1.toNat * 32768 + f3.toNat * 4096 +
      imm.toNat % 32 * 128 + op.toNat :=
  (toNat_append_eq (imm.extractLsb' 5 7 ++ rs2 ++ rs1 ++ f3 ++ imm.extractLsb' 0 5) op).trans (by
    have := imm.isLt
    simp only [toNat_append_eq, extract_toNat, Nat.reducePow]
    omega)

theorem encodeB_toNat (imm rs2 rs1 f3 op) : (encodeB imm rs2 rs1 f3 op).toNat =
    imm.toNat / 4096 * 2147483648 + imm.toNat / 32 % 64 * 33554432 + rs2.toNat * 1048576 +
      rs1.toNat * 32768 + f3.toNat * 4096 + imm.toNat / 2 % 16 * 256 + imm.toNat / 2048 % 2 * 128 +
      op.toNat :=
  (toNat_append_eq (imm.extractLsb' 12 1 ++ imm.extractLsb' 5 6 ++ rs2 ++ rs1 ++ f3 ++
    imm.extractLsb' 1 4 ++ imm.extractLsb' 11 1) op).trans (by
    have := imm.isLt
    simp only [toNat_append_eq, extract_toNat, Nat.reducePow]
    omega)

theorem encodeU_toNat (imm rd op) : (encodeU imm rd op).toNat =
    imm.toNat * 4096 + rd.toNat * 128 + op.toNat :=
  (toNat_append_eq (imm ++ rd) op).trans (by simp only [toNat_append_eq]; omega)

theorem encodeJ_toNat (imm rd op) : (encodeJ imm rd op).toNat =
    imm.toNat / 1048576 * 2147483648 + imm.toNat / 2 % 1024 * 2097152 + imm.toNat / 2048 % 2 * 1048576 +
      imm.toNat / 4096 % 256 * 4096 + rd.toNat * 128 + op.toNat :=
  (toNat_append_eq (imm.extractLsb' 20 1 ++ imm.extractLsb' 1 10 ++ imm.extractLsb' 11 1 ++
    imm.extractLsb' 12 8 ++ rd) op).trans (by
    have := imm.isLt
    simp only [toNat_append_eq, extract_toNat, Nat.reducePow]
    omega)

/-! ## The opcode and the function codes of encoded words -/

section
variable (f7 op : BitVec 7) (rs2 rs1 rd : RegIdx) (f3 : BitVec 3) (immI immS : BitVec 12) (immB : BitVec 13)
  (immU : BitVec 20) (immJ : BitVec 21)

@[simp] theorem opcodeOf_encodeR : opcodeOf (encodeR f7 rs2 rs1 f3 rd op) = op := by
  apply BitVec.eq_of_toNat_eq; rw [opcodeOf, field_toNat, encodeR_toNat]; simp only [Nat.reducePow]; omega
@[simp] theorem opcodeOf_encodeI : opcodeOf (encodeI immI rs1 f3 rd op) = op := by
  apply BitVec.eq_of_toNat_eq; rw [opcodeOf, field_toNat, encodeI_toNat]; simp only [Nat.reducePow]; omega
@[simp] theorem opcodeOf_encodeS : opcodeOf (encodeS immS rs2 rs1 f3 op) = op := by
  apply BitVec.eq_of_toNat_eq; rw [opcodeOf, field_toNat, encodeS_toNat]; simp only [Nat.reducePow]; omega
@[simp] theorem opcodeOf_encodeB : opcodeOf (encodeB immB rs2 rs1 f3 op) = op := by
  apply BitVec.eq_of_toNat_eq; rw [opcodeOf, field_toNat, encodeB_toNat]; simp only [Nat.reducePow]; omega
@[simp] theorem opcodeOf_encodeU : opcodeOf (encodeU immU rd op) = op := by
  apply BitVec.eq_of_toNat_eq; rw [opcodeOf, field_toNat, encodeU_toNat]; simp only [Nat.reducePow]; omega
@[simp] theorem opcodeOf_encodeJ : opcodeOf (encodeJ immJ rd op) = op := by
  apply BitVec.eq_of_toNat_eq; rw [opcodeOf, field_toNat, encodeJ_toNat]; simp only [Nat.reducePow]; omega

@[simp] theorem funct3Of_encodeR : funct3Of (encodeR f7 rs2 rs1 f3 rd op) = f3 := by
  apply BitVec.eq_of_toNat_eq; rw [funct3Of, field_toNat, encodeR_toNat]; simp only [Nat.reducePow]; omega
@[simp] theorem funct3Of_encodeI : funct3Of (encodeI immI rs1 f3 rd op) = f3 := by
  apply BitVec.eq_of_toNat_eq; rw [funct3Of, field_toNat, encodeI_toNat]; simp only [Nat.reducePow]; omega
@[simp] theorem funct3Of_encodeS : funct3Of (encodeS immS rs2 rs1 f3 op) = f3 := by
  apply BitVec.eq_of_toNat_eq; rw [funct3Of, field_toNat, encodeS_toNat]; simp only [Nat.reducePow]; omega
@[simp] theorem funct3Of_encodeB : funct3Of (encodeB immB rs2 rs1 f3 op) = f3 := by
  apply BitVec.eq_of_toNat_eq; rw [funct3Of, field_toNat, encodeB_toNat]; simp only [Nat.reducePow]
  have h1 : immB.toNat / 2 % 16 < 16 := Nat.mod_lt _ (by decide)
  have h2 : immB.toNat / 2048 % 2 < 2 := Nat.mod_lt _ (by decide)
  generalize immB.toNat / 2 % 16 = x at *
  generalize immB.toNat / 2048 % 2 = y at *
  omega
@[simp] theorem funct7Of_encodeR : funct7Of (encodeR f7 rs2 rs1 f3 rd op) = f7 := by
  apply BitVec.eq_of_toNat_eq; rw [funct7Of, field_toNat, encodeR_toNat]; simp only [Nat.reducePow]; omega
end

/-! ## A word is its fields -/

/-- One chunk of a number put together from chunks. -/
theorem chunk_eq {n q m r k l : Nat} (h : n = (q * l + m) * k + r) (hr : r < k) (hm : m < l) :
    n / k % l = m := by
  subst h
  have hk : 0 < k := by omega
  rw [Nat.add_comm, Nat.add_mul_div_right _ _ hk, Nat.div_eq_of_lt hr, Nat.zero_add, Nat.add_comm,
    Nat.add_mul_mod_self_right, Nat.mod_eq_of_lt hm]

theorem encodeI_fields (w : Word) :
    encodeI (immIOf w) (rs1Of w) (funct3Of w) (rdOf w) (opcodeOf w) = w := by
  apply BitVec.eq_of_toNat_eq
  rw [encodeI_toNat]
  simp only [immIOf, rs1Of, funct3Of, rdOf, opcodeOf, field_toNat, Nat.reducePow, Nat.div_one]
  have h0 : w.toNat % 4294967296 = w.toNat := Nat.mod_eq_of_lt w.isLt
  generalize w.toNat = x at *
  have h1 : x % 4096 = x % 128 + 128 * (x / 128 % 32) := @Nat.mod_mul 128 32 x
  have h2 : x % 32768 = x % 4096 + 4096 * (x / 4096 % 8) := @Nat.mod_mul 4096 8 x
  have h3 : x % 1048576 = x % 32768 + 32768 * (x / 32768 % 32) := @Nat.mod_mul 32768 32 x
  have h4 : x % 4294967296 = x % 1048576 + 1048576 * (x / 1048576 % 4096) := @Nat.mod_mul 1048576 4096 x
  linarith

theorem encodeR_fields (w : Word) :
    encodeR (funct7Of w) (rs2Of w) (rs1Of w) (funct3Of w) (rdOf w) (opcodeOf w) = w := by
  apply BitVec.eq_of_toNat_eq
  rw [encodeR_toNat]
  simp only [funct7Of, rs2Of, rs1Of, funct3Of, rdOf, opcodeOf, field_toNat, Nat.reducePow, Nat.div_one]
  have h0 : w.toNat % 4294967296 = w.toNat := Nat.mod_eq_of_lt w.isLt
  generalize w.toNat = x at *
  have h1 : x % 4096 = x % 128 + 128 * (x / 128 % 32) := @Nat.mod_mul 128 32 x
  have h2 : x % 32768 = x % 4096 + 4096 * (x / 4096 % 8) := @Nat.mod_mul 4096 8 x
  have h3 : x % 1048576 = x % 32768 + 32768 * (x / 32768 % 32) := @Nat.mod_mul 32768 32 x
  have h4 : x % 33554432 = x % 1048576 + 1048576 * (x / 1048576 % 32) := @Nat.mod_mul 1048576 32 x
  have h5 : x % 4294967296 = x % 33554432 + 33554432 * (x / 33554432 % 128) := @Nat.mod_mul 33554432 128 x
  linarith

theorem encodeS_fields (w : Word) :
    encodeS (immSOf w) (rs2Of w) (rs1Of w) (funct3Of w) (opcodeOf w) = w := by
  apply BitVec.eq_of_toNat_eq
  rw [encodeS_toNat, immSOf_toNat]
  simp only [rs2Of, rs1Of, funct3Of, opcodeOf, field_toNat, Nat.reducePow, Nat.div_one]
  have h0 : w.toNat % 4294967296 = w.toNat := Nat.mod_eq_of_lt w.isLt
  generalize w.toNat = x at *
  have h1 : x % 4096 = x % 128 + 128 * (x / 128 % 32) := @Nat.mod_mul 128 32 x
  have h2 : x % 32768 = x % 4096 + 4096 * (x / 4096 % 8) := @Nat.mod_mul 4096 8 x
  have h3 : x % 1048576 = x % 32768 + 32768 * (x / 32768 % 32) := @Nat.mod_mul 32768 32 x
  have h4 : x % 33554432 = x % 1048576 + 1048576 * (x / 1048576 % 32) := @Nat.mod_mul 1048576 32 x
  have h5 : x % 4294967296 = x % 33554432 + 33554432 * (x / 33554432 % 128) := @Nat.mod_mul 33554432 128 x
  have hl : x / 128 % 32 < 32 := Nat.mod_lt _ (by decide)
  generalize x / 128 % 32 = lo at *
  have e1 : (x / 33554432 % 128 * 32 + lo) / 32 = x / 33554432 % 128 := by omega
  have e2 : (x / 33554432 % 128 * 32 + lo) % 32 = lo := by omega
  rw [e1, e2]
  linarith

theorem encodeB_fields (w : Word) :
    encodeB (immBOf w) (rs2Of w) (rs1Of w) (funct3Of w) (opcodeOf w) = w := by
  apply BitVec.eq_of_toNat_eq
  rw [encodeB_toNat, immBOf_toNat]
  simp only [rs2Of, rs1Of, funct3Of, opcodeOf, field_toNat, Nat.reducePow, Nat.div_one]
  have h0 : w.toNat % 4294967296 = w.toNat := Nat.mod_eq_of_lt w.isLt
  generalize w.toNat = x at *
  have h1 : x % 256 = x % 128 + 128 * (x / 128 % 2) := @Nat.mod_mul 128 2 x
  have h2 : x % 4096 = x % 256 + 256 * (x / 256 % 16) := @Nat.mod_mul 256 16 x
  have h3 : x % 32768 = x % 4096 + 4096 * (x / 4096 % 8) := @Nat.mod_mul 4096 8 x
  have h4 : x % 1048576 = x % 32768 + 32768 * (x / 32768 % 32) := @Nat.mod_mul 32768 32 x
  have h5 : x % 33554432 = x % 1048576 + 1048576 * (x / 1048576 % 32) := @Nat.mod_mul 1048576 32 x
  have h6 : x % 2147483648 = x % 33554432 + 33554432 * (x / 33554432 % 64) := @Nat.mod_mul 33554432 64 x
  have h7 : x % 4294967296 = x % 2147483648 + 2147483648 * (x / 2147483648 % 2) := @Nat.mod_mul 2147483648 2 x
  have ha : x / 128 % 2 < 2 := Nat.mod_lt _ (by decide)
  have hb : x / 256 % 16 < 16 := Nat.mod_lt _ (by decide)
  have hc : x / 33554432 % 64 < 64 := Nat.mod_lt _ (by decide)
  generalize x / 128 % 2 = a at *
  generalize x / 256 % 16 = b at *
  generalize x / 33554432 % 64 = c at *
  generalize x / 2147483648 % 2 = d at *
  have e1 : (d * 4096 + a * 2048 + c * 32 + b * 2) / 4096 = d := by omega
  have e2 : (d * 4096 + a * 2048 + c * 32 + b * 2) / 32 % 64 = c :=
    chunk_eq (q := d * 2 + a) (r := b * 2) (by ring) (by omega) hc
  have e3 : (d * 4096 + a * 2048 + c * 32 + b * 2) / 2 % 16 = b :=
    chunk_eq (q := d * 128 + a * 64 + c) (r := 0) (by ring) (by omega) hb
  have e4 : (d * 4096 + a * 2048 + c * 32 + b * 2) / 2048 % 2 = a :=
    chunk_eq (q := d) (r := c * 32 + b * 2) (by ring) (by omega) ha
  rw [e1, e2, e3, e4]
  linarith

theorem encodeU_fields (w : Word) : encodeU (immUOf w) (rdOf w) (opcodeOf w) = w := by
  apply BitVec.eq_of_toNat_eq
  rw [encodeU_toNat]
  simp only [immUOf, rdOf, opcodeOf, field_toNat, Nat.reducePow, Nat.div_one]
  have h0 : w.toNat % 4294967296 = w.toNat := Nat.mod_eq_of_lt w.isLt
  generalize w.toNat = x at *
  have h1 : x % 4096 = x % 128 + 128 * (x / 128 % 32) := @Nat.mod_mul 128 32 x
  have h2 : x % 4294967296 = x % 4096 + 4096 * (x / 4096 % 1048576) := @Nat.mod_mul 4096 1048576 x
  linarith

theorem encodeJ_fields (w : Word) : encodeJ (immJOf w) (rdOf w) (opcodeOf w) = w := by
  apply BitVec.eq_of_toNat_eq
  rw [encodeJ_toNat, immJOf_toNat]
  simp only [rdOf, opcodeOf, field_toNat, Nat.reducePow, Nat.div_one]
  have h0 : w.toNat % 4294967296 = w.toNat := Nat.mod_eq_of_lt w.isLt
  generalize w.toNat = x at *
  have h1 : x % 4096 = x % 128 + 128 * (x / 128 % 32) := @Nat.mod_mul 128 32 x
  have h2 : x % 1048576 = x % 4096 + 4096 * (x / 4096 % 256) := @Nat.mod_mul 4096 256 x
  have h3 : x % 2097152 = x % 1048576 + 1048576 * (x / 1048576 % 2) := @Nat.mod_mul 1048576 2 x
  have h4 : x % 2147483648 = x % 2097152 + 2097152 * (x / 2097152 % 1024) := @Nat.mod_mul 2097152 1024 x
  have h5 : x % 4294967296 = x % 2147483648 + 2147483648 * (x / 2147483648 % 2) := @Nat.mod_mul 2147483648 2 x
  have ha : x / 4096 % 256 < 256 := Nat.mod_lt _ (by decide)
  have hb : x / 1048576 % 2 < 2 := Nat.mod_lt _ (by decide)
  have hc : x / 2097152 % 1024 < 1024 := Nat.mod_lt _ (by decide)
  generalize x / 4096 % 256 = a at *
  generalize x / 1048576 % 2 = b at *
  generalize x / 2097152 % 1024 = c at *
  generalize x / 2147483648 % 2 = d at *
  have e1 : (d * 1048576 + a * 4096 + b * 2048 + c * 2) / 1048576 = d := by omega
  have e2 : (d * 1048576 + a * 4096 + b * 2048 + c * 2) / 2 % 1024 = c :=
    chunk_eq (q := d * 512 + a * 2 + b) (r := 0) (by ring) (by omega) hc
  have e3 : (d * 1048576 + a * 4096 + b * 2048 + c * 2) / 2048 % 2 = b :=
    chunk_eq (q := d * 256 + a) (r := c * 2) (by ring) (by omega) hb
  have e4 : (d * 1048576 + a * 4096 + b * 2048 + c * 2) / 4096 % 256 = a :=
    chunk_eq (q := d) (r := b * 2048 + c * 2) (by ring) (by omega) ha
  rw [e1, e2, e3, e4]
  linarith

/-- Bit 0 of an assembled branch offset is 0 (spec R79). -/
theorem immBOf_even (w : Word) : (immBOf w).toNat % 2 = 0 := by
  rw [immBOf_toNat]; omega

/-- Bit 0 of an assembled jump offset is 0 (spec R81). -/
theorem immJOf_even (w : Word) : (immJOf w).toNat % 2 = 0 := by
  rw [immJOf_toNat]; omega

theorem immBOf_getLsbD_zero (w : Word) : (immBOf w).getLsbD 0 = false := by
  have := immBOf_even w
  simp only [BitVec.getLsbD, Nat.testBit_zero, decide_eq_false_iff_not]
  omega

theorem immJOf_getLsbD_zero (w : Word) : (immJOf w).getLsbD 0 = false := by
  have := immJOf_even w
  simp only [BitVec.getLsbD, Nat.testBit_zero, decide_eq_false_iff_not]
  omega

/-! ## Masks -/

/-- A word that meets a row's mask has the row's opcode. -/
theorem opcodeOf_of_mask {w m p : Word} (h : w &&& m = p) (hm : opcodeOf m = 127#7) :
    opcodeOf w = opcodeOf p := by
  have h1 : opcodeOf w &&& opcodeOf m = opcodeOf p := by
    rw [← h]; exact BitVec.extractLsb'_and.symm
  rw [hm] at h1
  rw [← h1]
  exact (BitVec.and_allOnes (x := opcodeOf w)).symm

/-- A word that meets a row's mask has the row's funct3, where the mask asks for it. -/
theorem funct3Of_of_mask {w m p : Word} (h : w &&& m = p) (hm : funct3Of m = 7#3) :
    funct3Of w = funct3Of p := by
  have h1 : funct3Of w &&& funct3Of m = funct3Of p := by
    rw [← h]; exact BitVec.extractLsb'_and.symm
  rw [hm] at h1
  rw [← h1]
  exact (BitVec.and_allOnes (x := funct3Of w)).symm

/-- A word that meets a row's mask has the row's funct7, where the mask asks for it. -/
theorem funct7Of_of_mask {w m p : Word} (h : w &&& m = p) (hm : funct7Of m = 127#7) :
    funct7Of w = funct7Of p := by
  have h1 : funct7Of w &&& funct7Of m = funct7Of p := by
    rw [← h]; exact BitVec.extractLsb'_and.symm
  rw [hm] at h1
  rw [← h1]
  exact (BitVec.and_allOnes (x := funct7Of w)).symm

theorem field_and (v w : Word) (lsb len : Nat) :
    field (v &&& w) lsb len = field v lsb len &&& field w lsb len :=
  BitVec.extractLsb'_and

/-- What the mask of opcode and funct3 keeps. -/
theorem and_funct3Mask (w : Word) :
    w &&& 0x0000707F#32 = encodeI 0 0 (funct3Of w) 0 (opcodeOf w) := by
  rw [← encodeI_fields (w &&& 0x0000707F#32)]
  simp only [immIOf, rs1Of, funct3Of, rdOf, opcodeOf, field_and]
  rw [show field 0x0000707F#32 20 12 = 0#12 by decide, show field 0x0000707F#32 15 5 = 0#5 by decide,
    show field 0x0000707F#32 12 3 = BitVec.allOnes 3 by decide, show field 0x0000707F#32 7 5 = 0#5 by decide,
    show field 0x0000707F#32 0 7 = BitVec.allOnes 7 by decide]
  simp only [BitVec.and_zero, BitVec.and_allOnes]
  rfl

/-- What the mask of opcode, funct3 and funct7 keeps. -/
theorem and_funct7Mask (w : Word) :
    w &&& 0xFE00707F#32 = encodeR (funct7Of w) 0 0 (funct3Of w) 0 (opcodeOf w) := by
  rw [← encodeR_fields (w &&& 0xFE00707F#32)]
  simp only [funct7Of, rs2Of, rs1Of, funct3Of, rdOf, opcodeOf, field_and]
  rw [show field 0xFE00707F#32 25 7 = BitVec.allOnes 7 by decide, show field 0xFE00707F#32 20 5 = 0#5 by decide,
    show field 0xFE00707F#32 15 5 = 0#5 by decide,
    show field 0xFE00707F#32 12 3 = BitVec.allOnes 3 by decide, show field 0xFE00707F#32 7 5 = 0#5 by decide,
    show field 0xFE00707F#32 0 7 = BitVec.allOnes 7 by decide]
  simp only [BitVec.and_zero, BitVec.and_allOnes]
  rfl

/-- What the mask of the opcode keeps. -/
theorem and_opcodeMask (w : Word) : w &&& 0x0000007F#32 = encodeU 0 0 (opcodeOf w) := by
  rw [← encodeU_fields (w &&& 0x0000007F#32)]
  simp only [immUOf, rdOf, opcodeOf, field_and]
  rw [show field 0x0000007F#32 12 20 = 0#20 by decide, show field 0x0000007F#32 7 5 = 0#5 by decide,
    show field 0x0000007F#32 0 7 = BitVec.allOnes 7 by decide]
  simp only [BitVec.and_zero, BitVec.and_allOnes]
  rfl

/-- What is left without the ignored bits of SLLI and SUB (spec R86). -/
theorem and_ignoreFunct7Mask (w : Word) : w &&& 0x01FFFFFF#32 =
    encodeR 0#7 (rs2Of w) (rs1Of w) (funct3Of w) (rdOf w) (opcodeOf w) := by
  rw [← encodeR_fields (w &&& 0x01FFFFFF#32)]
  simp only [funct7Of, rs2Of, rs1Of, funct3Of, rdOf, opcodeOf, field_and]
  rw [show field 0x01FFFFFF#32 25 7 = 0#7 by decide, show field 0x01FFFFFF#32 20 5 = BitVec.allOnes 5 by decide,
    show field 0x01FFFFFF#32 15 5 = BitVec.allOnes 5 by decide,
    show field 0x01FFFFFF#32 12 3 = BitVec.allOnes 3 by decide,
    show field 0x01FFFFFF#32 7 5 = BitVec.allOnes 5 by decide,
    show field 0x01FFFFFF#32 0 7 = BitVec.allOnes 7 by decide]
  simp only [BitVec.and_zero, BitVec.and_allOnes]

/-- The ignored bits of JAL are no bits of its offset (spec R86). -/
theorem immJOf_and_ignoreRdMask (w : Word) : immJOf (w &&& 0xFFFFF07F#32) = immJOf w := by
  simp only [immJOf, field_and]
  rw [show field 0xFFFFF07F#32 31 1 = BitVec.allOnes 1 by decide,
    show field 0xFFFFF07F#32 12 8 = BitVec.allOnes 8 by decide,
    show field 0xFFFFF07F#32 20 1 = BitVec.allOnes 1 by decide,
    show field 0xFFFFF07F#32 21 10 = BitVec.allOnes 10 by decide]
  simp only [BitVec.and_allOnes]

/-- What is left without the ignored bits of JAL (spec R86). -/
theorem and_ignoreRdMask (w : Word) :
    w &&& 0xFFFFF07F#32 = encodeJ (immJOf w) 0#5 (opcodeOf w) := by
  rw [← encodeJ_fields (w &&& 0xFFFFF07F#32), immJOf_and_ignoreRdMask]
  simp only [rdOf, opcodeOf, field_and]
  rw [show field 0xFFFFF07F#32 7 5 = 0#5 by decide, show field 0xFFFFF07F#32 0 7 = BitVec.allOnes 7 by decide]
  simp only [BitVec.and_zero, BitVec.and_allOnes]

/-! ## The decoder by opcode -/

theorem decode_load {w : Word} (h : opcodeOf w = Config.opcLoad) : decode w = decodeLoad w := by
  unfold decode; rw [h]; rfl
theorem decode_store {w : Word} (h : opcodeOf w = Config.opcStore) : decode w = decodeStore w := by
  unfold decode; rw [h]; rfl
theorem decode_opImm {w : Word} (h : opcodeOf w = Config.opcOpImm) : decode w = decodeOpImm w := by
  unfold decode; rw [h]; rfl
theorem decode_op {w : Word} (h : opcodeOf w = Config.opcOp) : decode w = decodeOp w := by
  unfold decode; rw [h]; rfl
theorem decode_lui {w : Word} (h : opcodeOf w = Config.opcLui) :
    decode w = .ok (.lui (rdOf w) (immUOf w)) := by
  unfold decode; rw [h]; rfl
theorem decode_jal {w : Word} (h : opcodeOf w = Config.opcJal) : decode w = .ok (.jal (immJOf w)) := by
  unfold decode; rw [h]; rfl
theorem decode_branch {w : Word} (h : opcodeOf w = Config.opcBranch) : decode w = decodeBranch w := by
  unfold decode; rw [h]; rfl

/-- Every way in which a word decodes, one per instruction, with its opcode and function codes. -/
theorem decode_cases {w : Word} {i : Instr} (h : decode w = .ok i) :
    (opcodeOf w = Config.opcLoad ∧
      (funct3Of w = 0#3 ∧ i = .lb (rdOf w) (rs1Of w) (immIOf w) ∨
       funct3Of w = 1#3 ∧ i = .lh (rdOf w) (rs1Of w) (immIOf w) ∨
       funct3Of w = 2#3 ∧ i = .lw (rdOf w) (rs1Of w) (immIOf w) ∨
       funct3Of w = 4#3 ∧ i = .lbu (rdOf w) (rs1Of w) (immIOf w) ∨
       funct3Of w = 5#3 ∧ i = .lhu (rdOf w) (rs1Of w) (immIOf w))) ∨
    (opcodeOf w = Config.opcStore ∧
      (funct3Of w = 0#3 ∧ i = .sb (rs1Of w) (rs2Of w) (immSOf w) ∨
       funct3Of w = 1#3 ∧ i = .sh (rs1Of w) (rs2Of w) (immSOf w) ∨
       funct3Of w = 2#3 ∧ i = .sw (rs1Of w) (rs2Of w) (immSOf w))) ∨
    (opcodeOf w = Config.opcOpImm ∧
      (funct3Of w = 0#3 ∧ i = .addi (rdOf w) (rs1Of w) (immIOf w) ∨
       funct3Of w = 1#3 ∧ i = .slli (rdOf w) (rs1Of w) (shamtOf w) ∨
       funct3Of w = 2#3 ∧ i = .subi (rdOf w) (rs1Of w) (immIOf w))) ∨
    (opcodeOf w = Config.opcOp ∧
      (funct3Of w = 0#3 ∧ funct7Of w = 0#7 ∧ i = .add (rdOf w) (rs1Of w) (rs2Of w) ∨
       funct3Of w = 0#3 ∧ funct7Of w = 1#7 ∧ i = .mul (rdOf w) (rs1Of w) (rs2Of w) ∨
       funct3Of w = 2#3 ∧ i = .sub (rdOf w) (rs1Of w) (rs2Of w))) ∨
    (opcodeOf w = Config.opcLui ∧ i = .lui (rdOf w) (immUOf w)) ∨
    (opcodeOf w = Config.opcJal ∧ i = .jal (immJOf w)) ∨
    (opcodeOf w = Config.opcBranch ∧
      (funct3Of w = 0#3 ∧ i = .beq (rs1Of w) (rs2Of w) (immBOf w) ∨
       funct3Of w = 1#3 ∧ i = .bne (rs1Of w) (rs2Of w) (immBOf w) ∨
       funct3Of w = 4#3 ∧ i = .blt (rs1Of w) (rs2Of w) (immBOf w) ∨
       funct3Of w = 5#3 ∧ i = .bge (rs1Of w) (rs2Of w) (immBOf w) ∨
       funct3Of w = 6#3 ∧ i = .bltu (rs1Of w) (rs2Of w) (immBOf w) ∨
       funct3Of w = 7#3 ∧ i = .bgeu (rs1Of w) (rs2Of w) (immBOf w))) := by
  unfold decode at h
  split at h
  · rename_i ho
    refine .inl ⟨ho, ?_⟩
    unfold decodeLoad at h
    split at h <;> simp_all [eq_comm]
  split at h
  · rename_i ho
    refine .inr (.inl ⟨ho, ?_⟩)
    unfold decodeStore at h
    split at h <;> simp_all [eq_comm]
  split at h
  · rename_i ho
    refine .inr (.inr (.inl ⟨ho, ?_⟩))
    unfold decodeOpImm at h
    split at h <;> simp_all [eq_comm]
  split at h
  · rename_i ho
    refine .inr (.inr (.inr (.inl ⟨ho, ?_⟩)))
    unfold decodeOp at h
    split at h
    · split at h <;> simp_all [eq_comm]
    · simp_all [eq_comm]
    · simp at h
  split at h
  · rename_i ho
    exact .inr (.inr (.inr (.inr (.inl ⟨ho, by simpa [eq_comm] using h⟩))))
  split at h
  · rename_i ho
    exact .inr (.inr (.inr (.inr (.inr (.inl ⟨ho, by simpa [eq_comm] using h⟩)))))
  split at h
  · rename_i ho
    refine .inr (.inr (.inr (.inr (.inr (.inr ⟨ho, ?_⟩)))))
    unfold decodeBranch at h
    split at h <;> simp_all [eq_comm]
  · simp at h

end Sys2Proof
end

