-- ==== Sys2Proof/Laws/Operands.lean ====
section
/-! SUPPORT. The operand forms as numbers. -/

namespace Sys2Proof.Machine

open Sys2Proof

/-- Sign extension keeps the signed number. -/
theorem sext_toInt {n : Nat} (v : BitVec n) (h : n ≤ 32) : (sext v).toInt = v.toInt :=
  BitVec.toInt_signExtend_of_le h

/-- A word plus a sign-extended operand is the sum modulo 2^32 with the operand read as signed. -/
theorem add_sext_toNat {n : Nat} (w : Word) (v : BitVec n) (h : n ≤ 32) :
    ((w + sext v).toNat : Int) = (w.toNat + v.toInt) % addressSpaceSize := by
  have hv := sext_toInt v h
  rw [BitVec.toInt_eq_toNat_cond] at hv
  rw [BitVec.toNat_add]
  show (((w.toNat + (sext v).toNat) % 4294967296 : Nat) : Int) = (w.toNat + v.toInt) % 4294967296
  split at hv <;> omega

/-- A word minus a sign-extended operand is the difference modulo 2^32 with the operand read as signed. -/
theorem sub_sext_toNat {n : Nat} (w : Word) (v : BitVec n) (h : n ≤ 32) :
    ((w - sext v).toNat : Int) = (w.toNat - v.toInt) % addressSpaceSize := by
  have hv := sext_toInt v h
  have hs := (sext v).isLt
  rw [BitVec.toInt_eq_toNat_cond] at hv
  rw [BitVec.toNat_sub]
  show (((4294967296 - (sext v).toNat + w.toNat) % 4294967296 : Nat) : Int) =
    (w.toNat - v.toInt) % 4294967296
  split at hv <;> omega

/-- `pc + offset` is `pc` exactly for the offset 0 (spec R107). -/
theorem State.target_eq_pc {n : Nat} (s : State) (v : BitVec n) (h : n ≤ 32) :
    s.target v = s.pc ↔ v = 0#n := by
  unfold State.target
  constructor
  · intro hx
    have h0 : sext v = 0#32 := (BitVec.add_right_inj s.pc).mp (by simpa using hx)
    apply BitVec.eq_of_toInt_eq
    rw [← sext_toInt v h, h0]
    simp
  · rintro rfl
    have h0 : sext (0#n) = 0#32 := by
      apply BitVec.eq_of_toInt_eq
      rw [sext_toInt _ h]
      simp
    rw [h0, BitVec.add_zero]

/-- `imm_u` as a number (spec R80). -/
theorem immUpper_toNat (imm : BitVec 20) : (immUpper imm).toNat = imm.toNat * 4096 :=
  (toNat_append_eq imm 0#12).trans (by simp)

end Sys2Proof.Machine
end

