-- ==== Sys2Proof/Laws/Exec.lean ====
section
/-! SUPPORT. What a meaning, an instruction and a step can do, said once. -/

namespace Sys2Proof.Machine

open Sys2Proof

/-! ## The shared operations -/

theorem complete_eq (s : State) (next : Word) : complete s next = .next (s.commit next) := rfl

theorem raise_eq (s : State) (k : Fault) (inst : Option Word) :
    raise s k inst = .next (faulted s k inst) := rfl

theorem load_ok {w : Width} {e : Extension} {i : Instr} {rd rs1 : RegIdx} {imm : BitVec 12} {s : State}
    (h : checkAccess s.regions (s.effAddr rs1 imm) w = .ok ()) :
    load w e i rd rs1 imm s = .next ((s.writeReg rd (extend w e
      (BitVec.ofNat 32 (Memory.readBytes s.mem (s.effAddr rs1 imm).toNat w.bytes)))).commit s.nextPc) := by
  simp [load, memRead_ok h, complete_eq]

theorem load_error {w : Width} {e : Extension} {i : Instr} {rd rs1 : RegIdx} {imm : BitVec 12} {s : State}
    {k : Fault} (h : checkAccess s.regions (s.effAddr rs1 imm) w = .error k) :
    load w e i rd rs1 imm s = .next (faulted s k (some (encode i))) := by
  simp [load, memRead_error.mpr h, raise_eq]

theorem store_ok {w : Width} {i : Instr} {rs1 rs2 : RegIdx} {imm : BitVec 12} {s : State}
    (h : checkAccess s.regions (s.effAddr rs1 imm) w = .ok ()) :
    store w i rs1 rs2 imm s = .next ((s.setMem (Memory.writeBytes s.mem (s.effAddr rs1 imm).toNat
      (s.readReg rs2) 0 w.bytes)).commit s.nextPc) := by
  simp [store, memWrite_ok h, complete_eq]

theorem store_error {w : Width} {i : Instr} {rs1 rs2 : RegIdx} {imm : BitVec 12} {s : State} {k : Fault}
    (h : checkAccess s.regions (s.effAddr rs1 imm) w = .error k) :
    store w i rs1 rs2 imm s = .next (faulted s k (some (encode i))) := by
  simp [store, memWrite_error.mpr h, raise_eq]

/-! ## What stays the same after the common endings -/

theorem advances_writeReg (s : State) (rd : RegIdx) (v : Word) :
    Advances s ((s.writeReg rd v).commit s.nextPc) := by
  refine ⟨?_, rfl, State.commit_nextPc_status (s := s.writeReg rd v), rfl, rfl⟩
  show (s.pc + 4#32).toNat = _
  rw [BitVec.toNat_add]
  rfl

theorem advances_setMem (s : State) (m : Memory) : Advances s ((s.setMem m).commit s.nextPc) := by
  refine ⟨?_, rfl, State.commit_nextPc_status (s := s.setMem m), rfl, rfl⟩
  show (s.pc + 4#32).toNat = _
  rw [BitVec.toNat_add]
  rfl

theorem sameRegsExcept_writeReg (s : State) (rd : RegIdx) (v next : Word) :
    SameRegsExcept s ((s.writeReg rd v).commit next) rd := by
  intro j hj
  rw [State.commit_readReg, State.readReg_writeReg, if_neg hj]

/-- Where no instruction has faulted yet, a commit does not fault. -/
theorem State.commit_not_faulted {s : State} (h : s.status = .running) (next : Word) :
    (s.commit next).status ≠ .faulted := by
  rw [State.commit_status]
  split
  · decide
  · rw [h]
    decide

/-! ## What an instruction can do -/

/-- The three shapes of an instruction's answer: its data access faults, or it completes after at most one
register write, or it completes after one memory write. -/
inductive ExecShape (i : Instr) (s : State) : State → Prop where
  /-- The data access raised `k`: nothing is written. -/
  | fault (a : Word) (n : Width) (k : Fault) (hd : dataAccess s i = some (a, n))
      (hc : checkAccess s.regions a n = .error k) : ExecShape i s (faulted s k (some (encode i)))
  /-- A register was written. -/
  | register (rd : RegIdx) (v next : Word) (hr : destReg i = some rd)
      (hd : ∀ a n, dataAccess s i = some (a, n) → checkAccess s.regions a n = .ok ()) :
      ExecShape i s ((s.writeReg rd v).commit next)
  /-- A store wrote its bytes. -/
  | memory (a : Word) (n : Width) (r : RegIdx) (hs : isStore i = true) (hd : dataAccess s i = some (a, n))
      (hr : storeSource i = some r) (hc : checkAccess s.regions a n = .ok ()) :
      ExecShape i s ((s.setMem (Memory.writeBytes s.mem a.toNat (s.readReg r) 0 n.bytes)).commit s.nextPc)
  /-- A branch wrote nothing. -/
  | branch (next : Word) (hr : destReg i = none) (hd : dataAccess s i = none) : ExecShape i s (s.commit next)

theorem load_shape {w : Width} {e : Extension} {i : Instr} {rd rs1 : RegIdx} {imm : BitVec 12} {s : State}
    (hr : destReg i = some rd) (hd : dataAccess s i = some (s.effAddr rs1 imm, w)) :
    ∃ t, load w e i rd rs1 imm s = .next t ∧ ExecShape i s t := by
  cases hc : checkAccess s.regions (s.effAddr rs1 imm) w with
  | error k => exact ⟨_, load_error hc, .fault _ _ _ hd hc⟩
  | ok u =>
    refine ⟨_, load_ok hc, .register _ _ _ hr fun a n h => ?_⟩
    rw [hd] at h
    cases h
    exact hc

theorem store_shape {w : Width} {i : Instr} {rs1 rs2 : RegIdx} {imm : BitVec 12} {s : State}
    (hs : isStore i = true) (hr : storeSource i = some rs2)
    (hd : dataAccess s i = some (s.effAddr rs1 imm, w)) :
    ∃ t, store w i rs1 rs2 imm s = .next t ∧ ExecShape i s t := by
  cases hc : checkAccess s.regions (s.effAddr rs1 imm) w with
  | error k => exact ⟨_, store_error hc, .fault _ _ _ hd hc⟩
  | ok u => exact ⟨_, store_ok hc, .memory _ _ _ hs hd hr hc⟩

theorem writeResult_shape {i : Instr} {rd : RegIdx} {v : Word} {s : State} (hr : destReg i = some rd)
    (hd : dataAccess s i = none) : ∃ t, writeResult rd v s = .next t ∧ ExecShape i s t :=
  ⟨_, rfl, .register rd v s.nextPc hr fun a n h => by rw [hd] at h; cases h⟩

theorem branch_shape {i : Instr} {c : Cond} {rs1 rs2 : RegIdx} {imm : BitVec 13} {s : State}
    (hr : destReg i = none) (hd : dataAccess s i = none) :
    ∃ t, branch c rs1 rs2 imm s = .next t ∧ ExecShape i s t :=
  ⟨_, rfl, .branch _ hr hd⟩

/-- Every instruction answers a next state of one of the three shapes. -/
theorem exec_shape (i : Instr) (s : State) : ∃ t, exec i s = .next t ∧ ExecShape i s t := by
  cases i with
  | lb rd rs1 imm => exact load_shape rfl rfl
  | lh rd rs1 imm => exact load_shape rfl rfl
  | lw rd rs1 imm => exact load_shape rfl rfl
  | lbu rd rs1 imm => exact load_shape rfl rfl
  | lhu rd rs1 imm => exact load_shape rfl rfl
  | sb rs1 rs2 imm => exact store_shape rfl rfl rfl
  | sh rs1 rs2 imm => exact store_shape rfl rfl rfl
  | sw rs1 rs2 imm => exact store_shape rfl rfl rfl
  | addi rd rs1 imm => exact writeResult_shape rfl rfl
  | slli rd rs1 shamt => exact writeResult_shape rfl rfl
  | subi rd rs1 imm => exact writeResult_shape rfl rfl
  | add rd rs1 rs2 => exact writeResult_shape rfl rfl
  | mul rd rs1 rs2 => exact writeResult_shape rfl rfl
  | sub rd rs1 rs2 => exact writeResult_shape rfl rfl
  | lui rd imm => exact writeResult_shape rfl rfl
  | jal imm => exact ⟨_, rfl, .register 1#5 s.nextPc (s.target imm) rfl fun a n h => by cases h⟩
  | beq rs1 rs2 imm => exact branch_shape rfl rfl
  | bne rs1 rs2 imm => exact branch_shape rfl rfl
  | blt rs1 rs2 imm => exact branch_shape rfl rfl
  | bge rs1 rs2 imm => exact branch_shape rfl rfl
  | bltu rs1 rs2 imm => exact branch_shape rfl rfl
  | bgeu rs1 rs2 imm => exact branch_shape rfl rfl

/-- The inversion of `exec`. -/
theorem exec_cases {i : Instr} {s t : State} (h : exec i s = .next t) : ExecShape i s t := by
  obtain ⟨u, hu, hs⟩ := exec_shape i s
  rw [hu] at h
  cases h
  exact hs

/-- The word of a fault record: a load or store has no ignored bits, so its encoding is the word that was
decoded (log entry 11). -/
theorem encode_of_decode_access {w : Word} {i : Instr} {s : State} {a : Word} {n : Width}
    (h : decode w = .ok i) (hd : dataAccess s i = some (a, n)) : encode i = w := by
  rcases decode_cases h with ⟨ho, h⟩ | ⟨ho, h⟩ | ⟨ho, h⟩ | ⟨ho, h⟩ | ⟨ho, h⟩ | ⟨ho, h⟩ | ⟨ho, h⟩
  · rcases h with ⟨hf, rfl⟩ | ⟨hf, rfl⟩ | ⟨hf, rfl⟩ | ⟨hf, rfl⟩ | ⟨hf, rfl⟩ <;>
    · have := encodeI_fields w
      rw [ho, hf] at this
      exact this
  · rcases h with ⟨hf, rfl⟩ | ⟨hf, rfl⟩ | ⟨hf, rfl⟩ <;>
    · have := encodeS_fields w
      rw [ho, hf] at this
      exact this
  · rcases h with ⟨_, rfl⟩ | ⟨_, rfl⟩ | ⟨_, rfl⟩ <;> simp [dataAccess] at hd
  · rcases h with ⟨_, _, rfl⟩ | ⟨_, _, rfl⟩ | ⟨_, rfl⟩ <;> simp [dataAccess] at hd
  · subst h; simp [dataAccess] at hd
  · subst h; simp [dataAccess] at hd
  · rcases h with ⟨_, rfl⟩ | ⟨_, rfl⟩ | ⟨_, rfl⟩ | ⟨_, rfl⟩ | ⟨_, rfl⟩ | ⟨_, rfl⟩ <;>
      simp [dataAccess] at hd

/-! ## What a step can do -/

theorem step_stopped {s : State} (h : s.status ≠ .running) : step s = .next s := by
  unfold step cycle
  split
  · contradiction
  · rfl
  · rfl

theorem step_running {s : State} (h : s.status = .running) (hr : regionsWf s.regions) :
    step s = fetchExecute s := by
  unfold step cycle
  rw [h]
  exact if_pos hr

theorem fetchExecute_fetchFault {s : State} {k : Fault} (h : fetch s = .error k) :
    fetchExecute s = .next (faulted s k none) := by
  simp [fetchExecute, h, raise_eq]

theorem fetchExecute_reject {s : State} {w : Word} {r : Reject} (h : fetch s = .ok w)
    (hd : decode w = .error r) : fetchExecute s = .next (faulted s (faultOfReject r) (some w)) := by
  simp [fetchExecute, h, hd, raise_eq]

theorem fetchExecute_exec {s : State} {w : Word} {i : Instr} (h : fetch s = .ok w)
    (hd : decode w = .ok i) : fetchExecute s = exec i s := by
  simp [fetchExecute, h, hd]

/-- All that a step which answers a next state can be: a stopped core stays, or a running core's fetch faults,
or the word is rejected, or the decoded instruction runs. -/
theorem step_cases {s t : State} (h : step s = .next t) :
    (s.status ≠ .running ∧ t = s) ∨
    (s.status = .running ∧ regionsWf s.regions ∧
      ((∃ k, fetch s = .error k ∧ t = faulted s k none) ∨
       (∃ w r, fetch s = .ok w ∧ decode w = .error r ∧ t = faulted s (faultOfReject r) (some w)) ∨
       (∃ w i, fetch s = .ok w ∧ decode w = .ok i ∧ exec i s = .next t))) := by
  by_cases hs : s.status = .running
  · refine .inr ⟨hs, ?_⟩
    by_cases hr : regionsWf s.regions
    · refine ⟨hr, ?_⟩
      rw [step_running hs hr] at h
      cases hf : fetch s with
      | error k =>
        rw [fetchExecute_fetchFault hf] at h
        exact .inl ⟨k, rfl, by simpa [eq_comm] using h⟩
      | ok w =>
        cases hd : decode w with
        | error r =>
          rw [fetchExecute_reject hf hd] at h
          exact .inr (.inl ⟨w, r, rfl, hd, by simpa [eq_comm] using h⟩)
        | ok i =>
          rw [fetchExecute_exec hf hd] at h
          exact .inr (.inr ⟨w, i, rfl, hd, h⟩)
    · unfold step cycle at h
      rw [hs] at h
      simp [hr] at h
  · rw [step_stopped hs] at h
    exact .inl ⟨hs, by simpa [eq_comm] using h⟩

end Sys2Proof.Machine
end

