-- ==== Sys2Proof/Laws/PerInstr.lean ====
section
/-! SUPPORT. A statement about every instruction as syntax, one lemma per constructor: its encoding meets the
mask and match of its row (spec R85). -/

namespace Sys2Proof.Laws.EncodesItsRow

open Sys2Proof

/-- The word of `i` is a word of `i`'s row. -/
def Statement (i : Instr) : Prop := encode i &&& i.row.mask = i.row.pattern

theorem of_funct3 {i : Instr} {f : BitVec 3} {o : BitVec 7} (hm : i.row.mask = 0x0000707F#32)
    (hf : funct3Of (encode i) = f) (ho : opcodeOf (encode i) = o)
    (hp : encodeI 0 0 f 0 o = i.row.pattern) : Statement i := by
  unfold Statement
  rw [hm, and_funct3Mask, hf, ho, hp]

theorem of_funct7 {i : Instr} {g : BitVec 7} {f : BitVec 3} {o : BitVec 7}
    (hm : i.row.mask = 0xFE00707F#32) (hg : funct7Of (encode i) = g) (hf : funct3Of (encode i) = f)
    (ho : opcodeOf (encode i) = o) (hp : encodeR g 0 0 f 0 o = i.row.pattern) : Statement i := by
  unfold Statement
  rw [hm, and_funct7Mask, hg, hf, ho, hp]

theorem of_opcode {i : Instr} {o : BitVec 7} (hm : i.row.mask = 0x0000007F#32)
    (ho : opcodeOf (encode i) = o) (hp : encodeU 0 0 o = i.row.pattern) : Statement i := by
  unfold Statement
  rw [hm, and_opcodeMask, ho, hp]

theorem lb (rd rs1 imm) : Statement (.lb rd rs1 imm) :=
  of_funct3 rfl (funct3Of_encodeI ..) (opcodeOf_encodeI ..) rfl
theorem lh (rd rs1 imm) : Statement (.lh rd rs1 imm) :=
  of_funct3 rfl (funct3Of_encodeI ..) (opcodeOf_encodeI ..) rfl
theorem lw (rd rs1 imm) : Statement (.lw rd rs1 imm) :=
  of_funct3 rfl (funct3Of_encodeI ..) (opcodeOf_encodeI ..) rfl
theorem lbu (rd rs1 imm) : Statement (.lbu rd rs1 imm) :=
  of_funct3 rfl (funct3Of_encodeI ..) (opcodeOf_encodeI ..) rfl
theorem lhu (rd rs1 imm) : Statement (.lhu rd rs1 imm) :=
  of_funct3 rfl (funct3Of_encodeI ..) (opcodeOf_encodeI ..) rfl
theorem sb (rs1 rs2 imm) : Statement (.sb rs1 rs2 imm) :=
  of_funct3 rfl (funct3Of_encodeS ..) (opcodeOf_encodeS ..) rfl
theorem sh (rs1 rs2 imm) : Statement (.sh rs1 rs2 imm) :=
  of_funct3 rfl (funct3Of_encodeS ..) (opcodeOf_encodeS ..) rfl
theorem sw (rs1 rs2 imm) : Statement (.sw rs1 rs2 imm) :=
  of_funct3 rfl (funct3Of_encodeS ..) (opcodeOf_encodeS ..) rfl
theorem addi (rd rs1 imm) : Statement (.addi rd rs1 imm) :=
  of_funct3 rfl (funct3Of_encodeI ..) (opcodeOf_encodeI ..) rfl
theorem slli (rd rs1 shamt) : Statement (.slli rd rs1 shamt) :=
  of_funct3 rfl (funct3Of_encodeR ..) (opcodeOf_encodeR ..) rfl
theorem subi (rd rs1 imm) : Statement (.subi rd rs1 imm) :=
  of_funct3 rfl (funct3Of_encodeI ..) (opcodeOf_encodeI ..) rfl
theorem add (rd rs1 rs2) : Statement (.add rd rs1 rs2) :=
  of_funct7 rfl (funct7Of_encodeR ..) (funct3Of_encodeR ..) (opcodeOf_encodeR ..) rfl
theorem mul (rd rs1 rs2) : Statement (.mul rd rs1 rs2) :=
  of_funct7 rfl (funct7Of_encodeR ..) (funct3Of_encodeR ..) (opcodeOf_encodeR ..) rfl
theorem sub (rd rs1 rs2) : Statement (.sub rd rs1 rs2) :=
  of_funct3 rfl (funct3Of_encodeR ..) (opcodeOf_encodeR ..) rfl
theorem lui (rd imm) : Statement (.lui rd imm) :=
  of_opcode rfl (opcodeOf_encodeU ..) rfl
theorem jal (imm) : Statement (.jal imm) :=
  of_opcode rfl (opcodeOf_encodeJ ..) rfl
theorem beq (rs1 rs2 imm) : Statement (.beq rs1 rs2 imm) :=
  of_funct3 rfl (funct3Of_encodeB ..) (opcodeOf_encodeB ..) rfl
theorem bne (rs1 rs2 imm) : Statement (.bne rs1 rs2 imm) :=
  of_funct3 rfl (funct3Of_encodeB ..) (opcodeOf_encodeB ..) rfl
theorem blt (rs1 rs2 imm) : Statement (.blt rs1 rs2 imm) :=
  of_funct3 rfl (funct3Of_encodeB ..) (opcodeOf_encodeB ..) rfl
theorem bge (rs1 rs2 imm) : Statement (.bge rs1 rs2 imm) :=
  of_funct3 rfl (funct3Of_encodeB ..) (opcodeOf_encodeB ..) rfl
theorem bltu (rs1 rs2 imm) : Statement (.bltu rs1 rs2 imm) :=
  of_funct3 rfl (funct3Of_encodeB ..) (opcodeOf_encodeB ..) rfl
theorem bgeu (rs1 rs2 imm) : Statement (.bgeu rs1 rs2 imm) :=
  of_funct3 rfl (funct3Of_encodeB ..) (opcodeOf_encodeB ..) rfl

end Sys2Proof.Laws.EncodesItsRow
end

