-- ==== Sys2Proof/Laws/Place.lean ====
section
/-! SUPPORT. The reset state is the spec's reset for one choice of the parameters; the host's instruction word
is the word that the next step fetches. -/

namespace Sys2Proof.Machine

open Sys2Proof

/-! ## Four bytes make a word -/

/-- Reading the four bytes of a word that were written gives the word. -/
theorem readBytes_writeBytes_word (m : Memory) (a : Nat) (v : Word) :
    BitVec.ofNat 32 (Memory.readBytes (Memory.writeBytes m a v 0 4) a 4) = v := by
  apply BitVec.eq_of_toNat_eq
  have hb : ∀ k, k < 4 → (Memory.byteAt (Memory.writeBytes m a v 0 4) (a + k)).toNat =
      v.toNat / 256 ^ k % 256 := fun k hk => by
    rw [Memory.byteAt_writeBytes, if_pos (by omega), Nat.add_sub_cancel_left, byteOf_toNat]
  have h0 := hb 0 (by decide)
  have h1 := hb 1 (by decide)
  have h2 := hb 2 (by decide)
  have h3 := hb 3 (by decide)
  have hv := v.isLt
  rw [BitVec.toNat_ofNat, Memory.readBytes_four]
  simp only [Nat.add_zero, Nat.reducePow, Nat.div_one] at h0 h1 h2 h3
  rw [h0, h1, h2, h3]
  have e1 : v.toNat % 65536 = v.toNat % 256 + 256 * (v.toNat / 256 % 256) := @Nat.mod_mul 256 256 _
  have e2 : v.toNat % 16777216 = v.toNat % 65536 + 65536 * (v.toNat / 65536 % 256) :=
    @Nat.mod_mul 65536 256 _
  have e3 : v.toNat % 4294967296 = v.toNat % 16777216 + 16777216 * (v.toNat / 16777216 % 256) :=
    @Nat.mod_mul 16777216 256 _
  rw [← e1, ← e2, ← e3]
  simp [Nat.mod_eq_of_lt hv]

/-- The four bytes of a word in address order make up the word again (spec R47). -/
theorem wordOfBytes_eq (b0 b1 b2 b3 : Byte) : (wordOfBytes b0 b1 b2 b3).toNat =
    b0.toNat + 256 * b1.toNat + 65536 * b2.toNat + 16777216 * b3.toNat :=
  (toNat_append_eq (b3 ++ b2 ++ b1) b0).trans (by
    simp only [toNat_append_eq, Nat.reducePow]
    omega)

/-! ## The placed word -/

/-- The next fetch from an aligned `pc` reads the word that was placed there. -/
theorem fetch_placeWord {s : State} (w : Word) (h : s.pc.toNat % 4 = 0) :
    fetch (s.placeWord w) = .ok w := by
  by_cases hr : inRange s.regions s.pc .word = true
  · have hp : s.placeWord w = s.setMem (Memory.writeBytes s.mem s.pc.toNat w 0 4) := by
      simp [State.placeWord, hr]
    have hc : checkAccess (s.placeWord w).regions (s.placeWord w).pc .word = .ok () := by
      rw [hp]; exact checkAccess_ok.mpr ⟨h, hr⟩
    rw [fetch, memRead_ok hc, hp]
    exact congrArg Except.ok (readBytes_writeBytes_word _ _ _)
  · have hg : (s.placeWord w).regions =
        ⟨s.pc, 4⟩ :: s.regions.filter (fun r => decide (r.disjoint ⟨s.pc, 4⟩)) := by
      simp [State.placeWord, hr]
    have hr' : inRange (s.placeWord w).regions s.pc .word = true := by
      rw [hg]
      simp [inRange, regionOf, Width.bytes]
    have hpc : (s.placeWord w).pc = s.pc := by simp [State.placeWord, hr]
    have hm : ∃ m, (s.placeWord w).mem = Memory.writeBytes m s.pc.toNat w 0 4 :=
      ⟨_, by simp [State.placeWord, hr]; rfl⟩
    obtain ⟨m, hm⟩ := hm
    rw [fetch, hpc, memRead_ok (checkAccess_ok.mpr ⟨h, hr'⟩), hm]
    exact congrArg Except.ok (readBytes_writeBytes_word _ _ _)

/-- Placing a word at an aligned `pc` keeps the region table well-formed. -/
theorem regionsWf_placeWord {s : State} (w : Word) (h : s.pc.toNat % 4 = 0) (hw : regionsWf s.regions) :
    regionsWf (s.placeWord w).regions := by
  by_cases hr : inRange s.regions s.pc .word = true
  · have hp : (s.placeWord w).regions = s.regions := by simp [State.placeWord, hr]
    rw [hp]
    exact hw
  · have hp : (s.placeWord w).regions =
        ⟨s.pc, 4⟩ :: s.regions.filter (fun r => decide (r.disjoint ⟨s.pc, 4⟩)) := by
      simp [State.placeWord, hr]
    rw [hp]
    refine ⟨by simp, fun r hr => ?_, List.pairwise_cons.mpr ⟨fun r hr => ?_, hw.2.2.filter _⟩⟩
    · rcases List.mem_cons.mp hr with rfl | hr
      · have := s.pc.isLt
        refine ⟨by simp, ?_⟩
        show s.pc.toNat + 4 ≤ 4294967296
        omega
      · exact hw.2.1 r (List.mem_filter.mp hr).1
    · have hd : r.disjoint ⟨s.pc, 4⟩ := by simpa using (List.mem_filter.mp hr).2
      exact hd.symm

/-- The next step of a running core with an aligned `pc` runs exactly the instruction of the word that the
host places. -/
theorem step_withFetchWord {s : State} {nbits w : Nat} {i : Instr} (hs : s.status = .running)
    (h : s.pc.toNat % 4 = 0) (hw : regionsWf s.regions)
    (hd : decode (BitVec.ofNat 32 (w % 2 ^ nbits)) = .ok i) :
    step (s.withFetchWord nbits w) = exec i (s.withFetchWord nbits w) := by
  have hst : (s.withFetchWord nbits w).status = .running := by
    rw [← hs]
    simp only [State.withFetchWord, State.placeTableWord, State.placeWord]
    split <;> rfl
  rw [step_running hst (regionsWf_placeWord _ h hw)]
  exact fetchExecute_exec (fetch_placeWord _ h) hd

/-! ## The reset state -/

/-- `State.reset` is the spec's reset with ENTRY_POINT 0, STACK_TOP 0 and one region of 2^32 zero bytes (log
entries 2, 3, 4). -/
theorem reset_eq_resetWith :
    State.reset = resetWith ⟨0#32, 0#32, [⟨0#32, List.replicate addressSpaceSize 0#8⟩]⟩ := by
  have hm : Memory.loadSegments [] [⟨0#32, List.replicate addressSpaceSize 0#8⟩] = [] :=
    Memory.loadBytes_zeros addressSpaceSize 0
  have hr : ([⟨0#32, List.replicate addressSpaceSize 0#8⟩] : List Segment).map segmentRegion =
      [⟨0#32, addressSpaceSize⟩] := by
    simp only [List.map_cons, List.map_nil, segmentRegion, List.length_replicate]
  have hx : (Vector.replicate 32 0#32).set 2 0#32 = Vector.replicate 32 0#32 := by decide
  unfold resetWith
  rw [hm, hr]
  dsimp only
  rw [hx]
  rfl

end Sys2Proof.Machine
end

