-- ==== Sys2Proof/Tests/Slice0.lean ====
section
/-! SUPPORT. Tests with results from the spec, and a witness for the hypotheses of each statement. -/

namespace Sys2Proof.Tests

open Sys2Proof Sys2Proof.Machine

/-! ## Well-formed terms: an odd offset is the reading of no word -/

theorem test_wf_refuses_odd_jal : Instr.wf (.jal 1) = false := by decide
theorem test_wf_refuses_odd_beq : Instr.wf (.beq 0 0 1) = false := by decide
theorem test_wf_refuses_odd_bne : Instr.wf (.bne 0 0 3) = false := by decide
theorem test_wf_refuses_odd_blt : Instr.wf (.blt 1 2 0x1001) = false := by decide
theorem test_wf_refuses_odd_bge : Instr.wf (.bge 1 2 0x1FFF) = false := by decide
theorem test_wf_refuses_odd_bltu : Instr.wf (.bltu 3 4 5) = false := by decide
theorem test_wf_refuses_odd_bgeu : Instr.wf (.bgeu 31 31 0xFFF) = false := by decide
theorem test_wf_takes_even_jal : Instr.wf (.jal 0x1FFFFE) = true := by decide

/-! ## Decoding: words written out in the spec (30_encoding.md R85, the examples of 41 to 47, and
95_test_vectors.md section 2.1) -/

theorem test_decode_lb : decode 0b111111111111_00110_000_00101_0000011#32 = .ok (.lb 5 6 (-1)) := rfl
theorem test_decode_lh : decode 0b000000000010_00110_001_00101_0000011#32 = .ok (.lh 5 6 2) := rfl
theorem test_decode_lw : decode 0b000000001000_00110_010_00101_0000011#32 = .ok (.lw 5 6 8) := rfl
theorem test_decode_lbu : decode 0b000000000000_00110_100_00101_0000011#32 = .ok (.lbu 5 6 0) := rfl
theorem test_decode_lhu : decode 0b111111111110_00110_101_00101_0000011#32 = .ok (.lhu 5 6 (-2)) := rfl
theorem test_decode_sb : decode 0b0000000_00111_00110_000_00011_0100011#32 = .ok (.sb 6 7 3) := rfl
theorem test_decode_sh : decode 0b1111111_00111_00110_001_11110_0100011#32 = .ok (.sh 6 7 (-2)) := rfl
theorem test_decode_sw : decode 0b0000000_00111_00110_010_00100_0100011#32 = .ok (.sw 6 7 4) := rfl
theorem test_decode_addi : decode 0b000000000101_00000_000_00101_0010011#32 = .ok (.addi 5 0 5) := rfl
theorem test_decode_slli : decode 0b0000000_00100_00110_001_00101_0010011#32 = .ok (.slli 5 6 4) := rfl
theorem test_decode_subi : decode 0b000000000001_00110_010_00101_0010011#32 = .ok (.subi 5 6 1) := rfl
theorem test_decode_add : decode 0b0000000_00111_00110_000_00101_0110011#32 = .ok (.add 5 6 7) := rfl
theorem test_decode_mul : decode 0b0000001_00111_00110_000_00101_0110011#32 = .ok (.mul 5 6 7) := rfl
theorem test_decode_sub : decode 0b0000000_00111_00110_010_00101_0110011#32 = .ok (.sub 5 6 7) := rfl
theorem test_decode_lui : decode 0b00010010001101000101_00101_0110111#32 = .ok (.lui 5 0x12345) := rfl
theorem test_decode_jal : decode 0b0_0000000100_0_00000000_00001_1101111#32 = .ok (.jal 8) := rfl
theorem test_decode_beq : decode 0b0_000000_00110_00101_000_0100_0_1100011#32 = .ok (.beq 5 6 8) := rfl
theorem test_decode_bne : decode 0b1_111111_00110_00101_001_1110_1_1100011#32 = .ok (.bne 5 6 (-4)) := rfl
theorem test_decode_blt : decode 0b0_000000_00110_00101_100_0100_0_1100011#32 = .ok (.blt 5 6 8) := rfl
theorem test_decode_bge : decode 0b1_111111_00110_00101_101_1100_1_1100011#32 = .ok (.bge 5 6 (-8)) := rfl
theorem test_decode_bltu : decode 0b0_111111_00110_00101_110_1111_1_1100011#32 = .ok (.bltu 5 6 4094) := rfl
theorem test_decode_bgeu : decode 0b1_000000_00110_00101_111_0000_0_1100011#32 = .ok (.bgeu 5 6 (-4096)) := rfl

/-- The four bytes of `lw x5, 8(x6)` in address order. -/
theorem test_decode_bytes : decodeBytes [0x83#8, 0x22#8, 0x83#8, 0x00#8, 0x13#8] = .ok (.lw 5 6 8, [0x13#8]) := rfl
theorem test_decode_short_bytes : decodeBytes [0x83#8, 0x22#8, 0x83#8] = .error .truncated := rfl
theorem test_decode_ignores_slli_top : decode 0xFFF31293#32 = .ok (.slli 5 6 31) := rfl
theorem test_decode_ignores_sub_funct7 : decode 0x407322B3#32 = .ok (.sub 5 6 7) := rfl
theorem test_decode_ignores_jal_rd : decode 0x000002EF#32 = .ok (.jal 0) := rfl
theorem test_decode_jal_bit20 : decode 0x001000EF#32 = .ok (.jal 2048) := rfl
theorem test_decode_jal_bits19_12 : decode 0x000FF0EF#32 = .ok (.jal 0xFF000) := rfl
theorem test_decode_beq_bit7 : decode 0x000000E3#32 = .ok (.beq 0 0 2048) := rfl
theorem test_decode_beq_bit11 : decode 0x00000863#32 = .ok (.beq 0 0 16) := rfl
theorem test_decode_rejects_zero : decode 0x00000000#32 = .error .unknownOpcode := rfl
theorem test_decode_rejects_auipc : decode 0x00000017#32 = .error .unknownOpcode := rfl
theorem test_decode_rejects_load_011 : decode 0x00033283#32 = .error .unimplementedOperation := rfl
theorem test_decode_rejects_store_100 : decode 0x00734023#32 = .error .unimplementedOperation := rfl
theorem test_decode_rejects_opimm_100 : decode 0x00134293#32 = .error .unimplementedOperation := rfl
theorem test_decode_rejects_funct7_2 : decode 0x047302B3#32 = .error .unimplementedOperation := rfl
theorem test_decode_rejects_branch_010 : decode 0x0062A463#32 = .error .unimplementedOperation := rfl
theorem test_decode_table_word : decodeTableWord 32 0x00832283 = some (.lw 5 6 8) := rfl
theorem test_encode_sb : encode (.sb 6 7 3) = 0x007301A3#32 := by decide
theorem test_encode_bgeu : encode (.bgeu 5 6 (-4096)) = 0x8062F063#32 := by decide
theorem test_encode_jal : encode (.jal (-4)) = 0xFFDFF06F#32 := by decide

/-! ## Assembler spelling (30_encoding.md R90, 95_test_vectors.md) -/

theorem test_asm_load : (Instr.lb 5 6 (-1)).asm = "lb x5, -1(x6)" := by decide
theorem test_asm_store : (Instr.sh 6 7 (-2)).asm = "sh x7, -2(x6)" := by decide
theorem test_asm_branch : (Instr.bgeu 5 6 0x1000).asm = "bgeu x5, x6, -4096" := by decide

/-! ## One step (95_test_vectors.md sections 2.2 to 2.9) -/

/-- The common set-up of 95_test_vectors.md with values in `x5`, `x6`, `x7` and bytes from 0x2000 on. -/
def setUp (x5 x6 x7 : Word) (data : List Byte) : State where
  regs    := (((Vector.replicate 32 0#32).set 5 x5).set 6 x6).set 7 x7
  pc      := 0x1000#32
  mem     := Memory.loadBytes [] 0x2000 data
  status  := .running
  instret := 0
  fault   := none
  regions := [⟨0x1000#32, 16⟩, ⟨0x2000#32, 16⟩]

/-- The data of section 2.2. -/
def loadData : List Byte := [0x78#8, 0x56#8, 0x34#8, 0x92#8, 0x80#8, 0x7F#8, 0xFF#8, 0xFF#8]

/-- The next state of an answer. -/
def nextOf : Host.Outcome State Fault Refusal → Option State
  | .next s => some s
  | .fault _ => none
  | .refused _ => none

/-- The state after the step that runs the word `w`. -/
def stepWord (s : State) (w : Nat) : Option State := nextOf (step (s.withFetchWord 32 w))

/-- Register `i` after that step. -/
def regAfter (s : State) (w : Nat) (i : RegIdx) : Option Word := (stepWord s w).map (·.readReg i)

/-- `pc`, `instret` and status after that step. -/
def endAfter (s : State) (w : Nat) : Option (Word × Nat × Status) :=
  (stepWord s w).map fun t => (t.pc, t.instret, t.status)

/-- The `n` bytes from 0x2000 on after that step. -/
def bytesAfter (s : State) (w n : Nat) : Option (List Byte) :=
  (stepWord s w).map fun t => (List.range n).map fun k => byteIn t (0x2000 + k)

/-- The fault record after that step. -/
def faultAfter (s : State) (w : Nat) : Option FaultRecord := (stepWord s w).bind (·.fault)

theorem test_lb : regAfter (setUp 0xAAAA#32 0x2000#32 0#32 loadData) 0x00330283 5 = some 0xFFFFFF92#32 := by decide
theorem test_lbu : regAfter (setUp 0xAAAA#32 0x2000#32 0#32 loadData) 0x00334283 5 = some 0x00000092#32 := by decide
theorem test_lh : regAfter (setUp 0xAAAA#32 0x2000#32 0#32 loadData) 0x00231283 5 = some 0xFFFF9234#32 := by decide
theorem test_lhu : regAfter (setUp 0xAAAA#32 0x2000#32 0#32 loadData) 0x00235283 5 = some 0x00009234#32 := by decide
theorem test_lw_rd_is_rs1 : regAfter (setUp 0xAAAA#32 0x2000#32 0#32 loadData) 0x00032303 6 = some 0x92345678#32 := by decide
theorem test_lw_negative : regAfter (setUp 0#32 0x2004#32 0#32 loadData) 0xFFC32283 5 = some 0x92345678#32 := by decide
theorem test_lh_unaligned : faultAfter (setUp 0xAAAA#32 0x2000#32 0#32 loadData) 0x00131283 = some ⟨.unalignedAccess, 0x1000#32, some 0x00131283#32⟩ := by decide
theorem test_lb_out_of_range : faultAfter (setUp 0xAAAA#32 0x2000#32 0#32 loadData) 0xFFF30283 = some ⟨.outOfRangeAccess, 0x1000#32, some 0xFFF30283#32⟩ := by decide
theorem test_lw_alignment_first : faultAfter (setUp 0#32 0x5000#32 0#32 []) 0x00132283 =
    some ⟨.unalignedAccess, 0x1000#32, some 0x00132283#32⟩ := by decide
theorem test_sb : bytesAfter (setUp 0#32 0x2000#32 0xABCDEF12#32 []) 0x007300A3 8 =
    some [0x00#8, 0x12#8, 0x00#8, 0x00#8, 0x00#8, 0x00#8, 0x00#8, 0x00#8] := by decide
theorem test_sh : bytesAfter (setUp 0#32 0x2000#32 0xABCDEF12#32 []) 0x00731123 8 =
    some [0x00#8, 0x00#8, 0x12#8, 0xEF#8, 0x00#8, 0x00#8, 0x00#8, 0x00#8] := by decide
theorem test_sw : bytesAfter (setUp 0#32 0x2000#32 0xABCDEF12#32 []) 0x00732223 8 =
    some [0x00#8, 0x00#8, 0x00#8, 0x00#8, 0x12#8, 0xEF#8, 0xCD#8, 0xAB#8] := by decide
theorem test_sw_rs1_is_rs2 : bytesAfter (setUp 0#32 0x2000#32 0xABCDEF12#32 []) 0x00632023 8 =
    some [0x00#8, 0x20#8, 0x00#8, 0x00#8, 0x00#8, 0x00#8, 0x00#8, 0x00#8] := by decide
theorem test_sw_out_of_range : faultAfter (setUp 0#32 0x2000#32 0xABCDEF12#32 []) 0x00732823 = some ⟨.outOfRangeAccess, 0x1000#32, some 0x00732823#32⟩ := by decide
theorem test_addi_wraps : regAfter (setUp 0xFFFFFFFF#32 0#32 0#32 []) 0x00128293 5 = some 0x00000000#32 := by decide
theorem test_addi_writes_register_zero : regAfter (setUp 0#32 0x0#32 0x0#32 []) 0x00100013 0 = some 0x00000001#32 := by decide
theorem test_slli : regAfter (setUp 0#32 0x80000001#32 0x0#32 []) 0x01F31293 5 = some 0x80000000#32 := by decide
theorem test_slli_ignored_bits : regAfter (setUp 0#32 0x1234#32 0x0#32 []) 0x02031293 5 = some 0x00001234#32 := by decide
theorem test_subi : regAfter (setUp 0#32 0x3#32 0x0#32 []) 0x00532293 5 = some 0xFFFFFFFE#32 := by decide
theorem test_subi_negative : regAfter (setUp 0#32 0x7FFFF800#32 0x0#32 []) 0x80032293 5 = some 0x80000000#32 := by decide
theorem test_add : regAfter (setUp 0#32 0x7FFFFFFF#32 0x1#32 []) 0x007302B3 5 = some 0x80000000#32 := by decide
theorem test_mul : regAfter (setUp 0#32 0x12345678#32 0x9ABCDEF0#32 []) 0x027302B3 5 = some 0x242D2080#32 := by decide
theorem test_mul_negative : regAfter (setUp 0#32 0xFFFFFFFD#32 0x5#32 []) 0x027302B3 5 = some 0xFFFFFFF1#32 := by decide
theorem test_sub : regAfter (setUp 0#32 0x3#32 0x5#32 []) 0x007322B3 5 = some 0xFFFFFFFE#32 := by decide
theorem test_sub_funct7 : regAfter (setUp 0#32 0x3#32 0x5#32 []) 0xFE7322B3 5 = some 0xFFFFFFFE#32 := by decide
theorem test_lui : regAfter (setUp 0#32 0x0#32 0x0#32 []) 0xFFFFF2B7 5 = some 0xFFFFF000#32 := by decide
theorem test_lui_register_zero : regAfter (setUp 0#32 0x0#32 0x0#32 []) 0x00001037 0 = some 0x00001000#32 := by decide
theorem test_jal_link : regAfter (setUp 0#32 0x0#32 0x0#32 []) 0x000002EF 1 = some 0x00001004#32 := by decide
theorem test_jal_halts : endAfter (setUp 0#32 0x0#32 0x0#32 []) 0x000002EF = some (0x1000#32, 1, .halted) := by decide
theorem test_addi_ends : endAfter (setUp 0#32 0x0#32 0x0#32 []) 0x00000013 = some (0x1004#32, 1, .running) := by decide
theorem test_beq_taken : endAfter (setUp 0x80000000#32 0x80000000#32 0#32 []) 0x00628463 = some (0x1008#32, 1, .running) := by decide
theorem test_beq_not : endAfter (setUp 0x1#32 0x2#32 0#32 []) 0x00628463 = some (0x1004#32, 1, .running) := by decide
theorem test_bne_taken : endAfter (setUp 0x1#32 0x2#32 0#32 []) 0x00629463 = some (0x1008#32, 1, .running) := by decide
theorem test_bne_not : endAfter (setUp 0x7#32 0x7#32 0#32 []) 0x00629463 = some (0x1004#32, 1, .running) := by decide
theorem test_blt_taken : endAfter (setUp 0xFFFFFFFF#32 0x1#32 0#32 []) 0x0062C463 = some (0x1008#32, 1, .running) := by decide
theorem test_blt_not : endAfter (setUp 0x7FFFFFFF#32 0x80000000#32 0#32 []) 0x0062C463 = some (0x1004#32, 1, .running) := by decide
theorem test_bge_taken : endAfter (setUp 0x80000000#32 0x80000000#32 0#32 []) 0x0062D463 = some (0x1008#32, 1, .running) := by decide
theorem test_bge_not : endAfter (setUp 0x80000000#32 0x7FFFFFFF#32 0#32 []) 0x0062D463 = some (0x1004#32, 1, .running) := by decide
theorem test_bltu_taken : endAfter (setUp 0x1#32 0xFFFFFFFF#32 0#32 []) 0x0062E463 = some (0x1008#32, 1, .running) := by decide
theorem test_bltu_not : endAfter (setUp 0x80000000#32 0x7FFFFFFF#32 0#32 []) 0x0062E463 = some (0x1004#32, 1, .running) := by decide
theorem test_bgeu_taken : endAfter (setUp 0xFFFFFFFF#32 0x1#32 0#32 []) 0x0062F463 = some (0x1008#32, 1, .running) := by decide
theorem test_bgeu_not : endAfter (setUp 0x1#32 0x2#32 0#32 []) 0x0062F463 = some (0x1004#32, 1, .running) := by decide
theorem test_beq_self_halts : endAfter (setUp 0#32 0x0#32 0x0#32 []) 0x00000063 = some (0x1000#32, 1, .halted) := by decide
theorem test_unknown_opcode : faultAfter (setUp 0#32 0x0#32 0x0#32 []) 0x00000073 = some ⟨.unknownOpcode, 0x1000#32, some 0x73#32⟩ := by decide
theorem test_unimplemented : faultAfter (setUp 0#32 0x0#32 0x0#32 []) 0x407302B3 =
    some ⟨.unimplementedOperation, 0x1000#32, some 0x407302B3#32⟩ := by decide
theorem test_fault_ends : endAfter (setUp 0#32 0x0#32 0x0#32 []) 0x00000073 = some (0x1000#32, 0, .faulted) := by decide
theorem test_reset_first_step : endAfter State.reset 0x00500293 = some (4#32, 1, .running) := by decide
theorem test_reset_nothing_placed : (nextOf (step State.reset)).bind (·.fault) =
    some ⟨.unknownOpcode, 0#32, some 0#32⟩ := by decide


/-! ## Witnesses: for each statement with hypotheses, a state and operands that meet all of them, at the
boundaries of each clause -/

/-- The common set-up with the data of section 2.2, `x6 = 0x2000` and `x7 = 0xABCDEF12`. -/
def demo : State := setUp 0xAAAA#32 0x2000#32 0xABCDEF12#32 loadData

/-- `demo` with an instruction word at `pc`. -/
def demoAt (w : Nat) : State := demo.withFetchWord 32 w

theorem witness_FormatFieldsRoundTrip :
    (0x1FFE#13).getLsbD 0 = false ∧ (0x1FFFFE#21).getLsbD 0 = false := by decide

theorem witness_DecodeOfEncodeIsIdentity :
    (Instr.bgeu 31 31 0x1000).wf = true ∧ (Instr.jal 0x1FFFFE).wf = true ∧ (Instr.lb 0 0 0).wf = true := by decide

theorem witness_EncodeOfDecodeKeepsTheReadBits : ∃ i, decode 0xFFF31293#32 = .ok i := ⟨.slli 5 6 31, rfl⟩

theorem witness_TheTableRowsAreExactlyTheInstructions :
    (∃ r ∈ opcodeTable, 0xFE7322B3#32 &&& r.mask = r.pattern) ∧
    ∀ r ∈ opcodeTable, 0x00000073#32 &&& r.mask ≠ r.pattern := by decide

theorem witness_UnknownOpcodesFault : (demoAt 0x73).status = .running ∧ regionsWf (demoAt 0x73).regions ∧
    fetch (demoAt 0x73) = .ok 0x73#32 ∧ (0x73#32).extractLsb' 0 7 ∉ [0b0000011#7, 0b0010011#7, 0b0100011#7,
      0b0110011#7, 0b0110111#7, 0b1100011#7, 0b1101111#7] :=
  ⟨by decide, by decide, rfl, by decide⟩

theorem witness_UnlistedFunctionCodesFault : (demoAt 0x00033283).status = .running ∧
    regionsWf (demoAt 0x00033283).regions ∧ fetch (demoAt 0x00033283) = .ok 0x00033283#32 ∧
    decode 0x00033283#32 = .error .unimplementedOperation :=
  ⟨by decide, by decide, rfl, rfl⟩

theorem witness_IgnoredBitsDoNotMatter :
    (0xFFF31293#32 &&& 0x01FFFFFF#32 = 0x01F31293#32 &&& 0x01FFFFFF#32 ∧
      0xFFF31293#32 &&& 0x0000707F#32 = 0x00001013#32) ∧
    (0xFE7322B3#32 &&& 0x01FFFFFF#32 = 0x007322B3#32 &&& 0x01FFFFFF#32 ∧
      0xFE7322B3#32 &&& 0x0000707F#32 = 0x00002033#32) ∧
    (0x00000FEF#32 &&& 0xFFFFF07F#32 = 0x0000006F#32 &&& 0xFFFFF07F#32 ∧
      0x00000FEF#32 &&& 0x0000007F#32 = 0x0000006F#32) := by decide

/-- 0x200C is the last word of the region and 0x2010 the first address after it. -/
theorem witness_AccessIsInRangeInsideOneRegion : regionsWf demo.regions ∧
    (∃ r ∈ demo.regions, r.covers (0x200F#32).toNat) ∧ inRange demo.regions 0x200C#32 .word = true ∧
    (0x2010#32).toNat % Width.word.bytes = 0 ∧ inRange demo.regions 0x2010#32 .word = false := by decide

theorem witness_MemReadIsLittleEndianAndChecked :
    (0x2001#32).toNat % Width.half.bytes ≠ 0 ∧ (0x2003#32).toNat % Width.word.bytes ≠ 0 ∧
    ((0x2010#32).toNat % Width.byte.bytes = 0 ∧ inRange demo.regions 0x2010#32 .byte = false) ∧
    ((0x200F#32).toNat % Width.byte.bytes = 0 ∧ inRange demo.regions 0x200F#32 .byte = true) ∧
    ((0x200E#32).toNat % Width.half.bytes = 0 ∧ inRange demo.regions 0x200E#32 .half = true) ∧
    ((0x200C#32).toNat % Width.word.bytes = 0 ∧ inRange demo.regions 0x200C#32 .word = true) := by decide

theorem witness_MemWriteStoresTheLowBytes :
    (0x2001#32).toNat % Width.half.bytes ≠ 0 ∧ (0x2002#32).toNat % Width.word.bytes ≠ 0 ∧
    ((0x2010#32).toNat % Width.half.bytes = 0 ∧ inRange demo.regions 0x2010#32 .half = false) ∧
    ((0x2000#32).toNat % Width.byte.bytes = 0 ∧ inRange demo.regions 0x2000#32 .byte = true) ∧
    ((0x200E#32).toNat % Width.half.bytes = 0 ∧ inRange demo.regions 0x200E#32 .half = true) ∧
    ((0x200C#32).toNat % Width.word.bytes = 0 ∧ inRange demo.regions 0x200C#32 .word = true) := by decide

theorem witness_MixedWidthReadsAfterAWordWrite :
    regionsWf demo.regions ∧ ∃ t, memWrite demo 0x200C#32 .word 0xFFFFFFFF#32 = .ok t :=
  ⟨by decide, _, rfl⟩

theorem witness_LbLoadsASignedByte : 0xFFF30283#32 &&& 0x0000707F#32 = 0x00000003#32 ∧
    (demo.effAddr 6 15 = 0x200F#32 ∧ inRange demo.regions 0x200F#32 .byte = true) ∧
    (demo.effAddr 6 16 = 0x2010#32 ∧ inRange demo.regions 0x2010#32 .byte = false) ∧
    (demo.effAddr 6 (-1) = 0x1FFF#32 ∧ inRange demo.regions 0x1FFF#32 .byte = false) := by decide

theorem witness_LhLoadsASignedHalfWord : 0x00231283#32 &&& 0x0000707F#32 = 0x00001003#32 ∧
    (demo.effAddr 6 14 = 0x200E#32 ∧ (0x200E#32).toNat % 2 = 0 ∧
      inRange demo.regions 0x200E#32 .half = true) ∧
    (demo.effAddr 6 15 = 0x200F#32 ∧ (0x200F#32).toNat % 2 ≠ 0) ∧
    (demo.effAddr 6 (-1) = 0x1FFF#32 ∧ (0x1FFF#32).toNat % 2 ≠ 0) ∧
    (demo.effAddr 6 16 = 0x2010#32 ∧ (0x2010#32).toNat % 2 = 0 ∧
      inRange demo.regions 0x2010#32 .half = false) := by decide

theorem witness_LwLoadsAWord : 0x00832283#32 &&& 0x0000707F#32 = 0x00002003#32 ∧
    (demo.effAddr 6 12 = 0x200C#32 ∧ (0x200C#32).toNat % 4 = 0 ∧
      inRange demo.regions 0x200C#32 .word = true) ∧
    (demo.effAddr 6 13 = 0x200D#32 ∧ (0x200D#32).toNat % 4 ≠ 0) ∧
    (demo.effAddr 6 (-1) = 0x1FFF#32 ∧ (0x1FFF#32).toNat % 4 ≠ 0) ∧
    (demo.effAddr 6 16 = 0x2010#32 ∧ (0x2010#32).toNat % 4 = 0 ∧
      inRange demo.regions 0x2010#32 .word = false) := by decide

theorem witness_LbuLoadsAnUnsignedByte : 0x00034283#32 &&& 0x0000707F#32 = 0x00004003#32 ∧
    (demo.effAddr 6 15 = 0x200F#32 ∧ inRange demo.regions 0x200F#32 .byte = true) ∧
    (demo.effAddr 6 16 = 0x2010#32 ∧ inRange demo.regions 0x2010#32 .byte = false) ∧
    (demo.effAddr 6 (-1) = 0x1FFF#32 ∧ inRange demo.regions 0x1FFF#32 .byte = false) := by decide

theorem witness_LhuLoadsAnUnsignedHalfWord : 0xFFE35283#32 &&& 0x0000707F#32 = 0x00005003#32 ∧
    (demo.effAddr 6 14 = 0x200E#32 ∧ (0x200E#32).toNat % 2 = 0 ∧
      inRange demo.regions 0x200E#32 .half = true) ∧
    (demo.effAddr 6 15 = 0x200F#32 ∧ (0x200F#32).toNat % 2 ≠ 0) ∧
    (demo.effAddr 6 (-1) = 0x1FFF#32 ∧ (0x1FFF#32).toNat % 2 ≠ 0) ∧
    (demo.effAddr 6 16 = 0x2010#32 ∧ (0x2010#32).toNat % 2 = 0 ∧
      inRange demo.regions 0x2010#32 .half = false) := by decide

theorem witness_SbStoresTheLowByte : 0x007301A3#32 &&& 0x0000707F#32 = 0x00000023#32 ∧
    (demo.effAddr 6 15 = 0x200F#32 ∧ inRange demo.regions 0x200F#32 .byte = true) ∧
    (demo.effAddr 6 16 = 0x2010#32 ∧ inRange demo.regions 0x2010#32 .byte = false) ∧
    (demo.effAddr 6 (-1) = 0x1FFF#32 ∧ inRange demo.regions 0x1FFF#32 .byte = false) := by decide

theorem witness_ShStoresTheLowHalfWord : 0xFE731F23#32 &&& 0x0000707F#32 = 0x00001023#32 ∧
    (demo.effAddr 6 14 = 0x200E#32 ∧ (0x200E#32).toNat % 2 = 0 ∧
      inRange demo.regions 0x200E#32 .half = true) ∧
    (demo.effAddr 6 15 = 0x200F#32 ∧ (0x200F#32).toNat % 2 ≠ 0) ∧
    (demo.effAddr 6 (-1) = 0x1FFF#32 ∧ (0x1FFF#32).toNat % 2 ≠ 0) ∧
    (demo.effAddr 6 16 = 0x2010#32 ∧ (0x2010#32).toNat % 2 = 0 ∧
      inRange demo.regions 0x2010#32 .half = false) := by decide

theorem witness_SwStoresTheWord : 0x00732223#32 &&& 0x0000707F#32 = 0x00002023#32 ∧
    (demo.effAddr 6 12 = 0x200C#32 ∧ (0x200C#32).toNat % 4 = 0 ∧
      inRange demo.regions 0x200C#32 .word = true) ∧
    (demo.effAddr 6 13 = 0x200D#32 ∧ (0x200D#32).toNat % 4 ≠ 0) ∧
    (demo.effAddr 6 (-1) = 0x1FFF#32 ∧ (0x1FFF#32).toNat % 4 ≠ 0) ∧
    (demo.effAddr 6 16 = 0x2010#32 ∧ (0x2010#32).toNat % 4 = 0 ∧
      inRange demo.regions 0x2010#32 .word = false) := by decide

theorem witness_AddiAddsTheSignedImmediate : 0x00500293#32 &&& 0x0000707F#32 = 0x00000013#32 := by decide
theorem witness_SlliShiftsLeftByFiveBits : 0xFFF31293#32 &&& 0x0000707F#32 = 0x00001013#32 := by decide
theorem witness_SubiSubtractsTheSignedImmediate : 0x00132293#32 &&& 0x0000707F#32 = 0x00002013#32 := by decide
theorem witness_AddAddsTwoRegisters : 0x007302B3#32 &&& 0xFE00707F#32 = 0x00000033#32 := by decide
theorem witness_MulGivesTheLowHalfOfTheProduct : 0x027302B3#32 &&& 0xFE00707F#32 = 0x02000033#32 := by decide
theorem witness_SubSubtractsTwoRegisters : 0x407322B3#32 &&& 0x0000707F#32 = 0x00002033#32 := by decide
theorem witness_LuiSetsTheUpperTwentyBits : 0x123452B7#32 &&& 0x0000007F#32 = 0x00000037#32 := by decide

theorem witness_JalLinksToRegisterOne : 0x0060006F#32 &&& 0x0000007F#32 = 0x0000006F#32 ∧
    ∃ t, exec (.jal 6) demo = .next t ∧ t.pc.toNat % 4 ≠ 0 := ⟨by decide, _, rfl, by decide⟩

theorem witness_BeqBranchesWhenEqual : 0x00628463#32 &&& 0x0000707F#32 = 0x00000063#32 ∧
    ∃ t, exec (.beq 6 6 2) demo = .next t ∧ t.pc.toNat % 4 ≠ 0 := ⟨by decide, _, rfl, by decide⟩

theorem witness_BneBranchesWhenNotEqual : 0xFE629EE3#32 &&& 0x0000707F#32 = 0x00001063#32 ∧
    ∃ t, exec (.bne 5 6 2) demo = .next t ∧ t.pc.toNat % 4 ≠ 0 := ⟨by decide, _, rfl, by decide⟩

theorem witness_BltBranchesWhenSignedLess : 0x0062C463#32 &&& 0x0000707F#32 = 0x00004063#32 ∧
    ∃ t, exec (.blt 6 5 2) demo = .next t ∧ t.pc.toNat % 4 ≠ 0 := ⟨by decide, _, rfl, by decide⟩

theorem witness_BgeBranchesWhenSignedNotLess : 0x0062D463#32 &&& 0x0000707F#32 = 0x00005063#32 ∧
    ∃ t, exec (.bge 5 6 2) demo = .next t ∧ t.pc.toNat % 4 ≠ 0 := ⟨by decide, _, rfl, by decide⟩

theorem witness_BltuBranchesWhenUnsignedLess : 0x7E62EFE3#32 &&& 0x0000707F#32 = 0x00006063#32 ∧
    ∃ t, exec (.bltu 6 5 2) demo = .next t ∧ t.pc.toNat % 4 ≠ 0 := ⟨by decide, _, rfl, by decide⟩

theorem witness_BgeuBranchesWhenUnsignedNotLess : 0x8062F063#32 &&& 0x0000707F#32 = 0x00007063#32 ∧
    ∃ t, exec (.bgeu 5 6 2) demo = .next t ∧ t.pc.toNat % 4 ≠ 0 := ⟨by decide, _, rfl, by decide⟩

theorem witness_StoredValuesLoadBack :
    (demo.effAddr 6 12 = 0x200C#32 ∧ (0x200C#32).toNat % 4 = 0 ∧ inRange demo.regions 0x200C#32 .word = true) ∧
    (demo.effAddr 6 15 = 0x200F#32 ∧ inRange demo.regions 0x200F#32 .byte = true) := by decide

/-- A half-word store at the end of the word that is fetched. -/
theorem witness_StoresAreSeenByTheNextFetch : storeSource (.sh 6 7 14) = some 7 ∧
    dataAccess demo (.sh 6 7 14) = some (0x200E#32, .half) ∧
    checkAccess demo.regions 0x200E#32 .half = .ok () ∧ (∃ t, exec (.sh 6 7 14) demo = .next t) ∧
    (0x200C#32).toNat % 4 = 0 ∧ inRange demo.regions 0x200C#32 .word = true :=
  ⟨rfl, by decide, rfl, ⟨_, rfl⟩, by decide, by decide⟩

theorem witness_InstructionsKeepOtherRegistersAndTheRegionTable :
    destReg (.jal 0) ≠ some 0 ∧ destReg (.sw 6 7 0) ≠ some 7 := by decide

theorem witness_OnlyStoresChangeMemory : ∃ t, step (demoAt 0x00732223) = .next t ∧
    byteIn t 0x2004 ≠ byteIn (demoAt 0x00732223) 0x2004 := ⟨_, rfl, by decide⟩

theorem witness_FaultsArePrecise : (demoAt 0x00131283).status = .running ∧
    ∃ t, step (demoAt 0x00131283) = .next t ∧ t.status = .faulted := ⟨by decide, _, rfl, by decide⟩

/-- One state for each clause: `pc` misaligned and unbacked, `pc` unbacked, the two rejections, a data access
misaligned and unbacked, a data access unbacked, and a word that completes. -/
theorem witness_FaultsAreReportedInTheStatedOrder :
    (demo.status = .running ∧ regionsWf demo.regions) ∧
    ({ demo with pc := 0x5002#32 } : State).pc.toNat % 4 ≠ 0 ∧
    (({ demo with pc := 0x5000#32 } : State).pc.toNat % 4 = 0 ∧ inRange demo.regions 0x5000#32 .word = false) ∧
    (fetch (demoAt 0x73) = .ok 0x73#32 ∧ decode 0x73#32 = .error .unknownOpcode) ∧
    (fetch (demoAt 0x00033283) = .ok 0x00033283#32 ∧
      decode 0x00033283#32 = .error .unimplementedOperation) ∧
    (dataAccess demo (.lw 5 6 0x101) = some (0x2101#32, .word) ∧ (0x2101#32).toNat % Width.word.bytes ≠ 0) ∧
    (dataAccess demo (.lw 5 6 16) = some (0x2010#32, .word) ∧ (0x2010#32).toNat % Width.word.bytes = 0 ∧
      inRange demo.regions 0x2010#32 .word = false) ∧
    dataAccess demo (.addi 5 6 0) = none :=
  ⟨by decide, by decide, by decide, ⟨rfl, rfl⟩, ⟨rfl, rfl⟩, by decide, by decide, rfl⟩

theorem witness_StepRunsTheDecodedInstruction : (demoAt 0x00832283).status = .running ∧
    regionsWf (demoAt 0x00832283).regions ∧ (demoAt 0x00832283).pc.toNat % 4 = 0 ∧
    inRange (demoAt 0x00832283).regions (demoAt 0x00832283).pc .word = true ∧
    decodeBytes [byteIn (demoAt 0x00832283) 0x1000, byteIn (demoAt 0x00832283) 0x1001,
      byteIn (demoAt 0x00832283) 0x1002, byteIn (demoAt 0x00832283) 0x1003] = .ok (.lw 5 6 8, []) :=
  ⟨by decide, by decide, by decide, by decide, rfl⟩

theorem witness_StoppedCoreDoesNotChange : ({ demo with status := .halted } : State).status = .halted ∧
    ({ demo with status := .faulted } : State).status = .faulted := by decide

/-- A jump to itself, and a branch to its own address that is not taken. -/
theorem witness_HaltsExactlyOnATransferToItself : demo.status = .running ∧
    (∃ t, exec (.jal 0) demo = .next t ∧ t.status ≠ .faulted) ∧
    (∃ t, exec (.bne 6 6 0) demo = .next t ∧ t.status ≠ .faulted) :=
  ⟨rfl, ⟨_, rfl, by decide⟩, _, rfl, by decide⟩

theorem witness_CounterCountsCompletedInstructions : (demoAt 0x00832283).status = .running ∧
    (∃ t, step (demoAt 0x00832283) = .next t) ∧ (demoAt 0x73).status = .running ∧
    ∃ t, step (demoAt 0x73) = .next t := ⟨by decide, ⟨_, rfl⟩, by decide, _, rfl⟩

/-- `demo` with other bookkeeping. -/
def demoFaulted : State :=
  { demo with
    status := .faulted
    instret := 7
    fault := some ⟨.unknownOpcode, 0x1000#32, none⟩ }

theorem witness_ProgramsCannotSeeTheBookkeeping : SameToPrograms demo demoFaulted ∧
    (∃ t, exec (.lw 5 6 0) demo = .next t) ∧ ∃ t, exec (.lw 5 6 0) demoFaulted = .next t :=
  ⟨⟨rfl, rfl, rfl, rfl⟩, ⟨_, rfl⟩, _, rfl⟩

theorem witness_RunningCoreAlwaysHasASuccessor : demo.status = .running ∧ regionsWf demo.regions := by decide

theorem witness_StepKeepsTheInvariant : (demoAt 0x00732223).Inv ∧
    ∃ t, step (demoAt 0x00732223) = .next t := ⟨⟨by decide, by decide, by decide, by decide⟩, _, rfl⟩

/-- Parameters of a program of 95_test_vectors.md P4: 16 bytes at 0x1000, the stack top at 0x3000. -/
def demoParams (e : Word) : Params :=
  ⟨e, 0x3000#32, [⟨0x1000#32, bytesOfWord 0x00700013#32 ++ bytesOfWord 0x00100293#32 ++
    bytesOfWord 0x00202303#32 ++ bytesOfWord 0x0000006F#32⟩]⟩

theorem demoParams_boot (e : Word) : bootState (demoParams e) = some (resetWith (demoParams e)) :=
  if_pos (show regionsWf [⟨0x1000#32, 16⟩] by decide)

theorem witness_BootedCoreMeetsTheInvariant : ∃ s, bootState (demoParams 0x1000#32) = some s :=
  ⟨_, demoParams_boot _⟩

theorem witness_ResetLeavesTheTabledValues : (∃ s, bootState (demoParams 0x1000#32) = some s) ∧ (0#5) ≠ 2#5 ∧
    ∃ g ∈ (demoParams 0x1000#32).regions, g.bytes[15]? = some 0x00#8 :=
  ⟨⟨_, demoParams_boot _⟩, by decide, by decide⟩

/-- Two regions side by side are well-formed; two with a common address are not. -/
theorem witness_ResetIsRefusedForIllFormedRegions :
    (bootState ⟨0#32, 0#32, [⟨0#32, [1#8, 2#8]⟩, ⟨2#32, [3#8]⟩]⟩).isSome = true ∧
    (bootState ⟨0#32, 0#32, [⟨0#32, [1#8, 2#8]⟩, ⟨1#32, [3#8]⟩]⟩).isSome = false := by decide

/-- The self-jump is the last of four words of a region. -/
theorem witness_SelfJumpHaltsAfterOneInstruction : (∃ s, bootState (demoParams 0x100C#32) = some s) ∧
    (demoParams 0x100C#32).entryPoint.toNat % 4 = 0 ∧
    ∃ g ∈ (demoParams 0x100C#32).regions, (demoParams 0x100C#32).entryPoint.toNat = g.base.toNat + 12 ∧
      g.bytes[12]? = some 0x6F#8 ∧ g.bytes[12 + 1]? = some 0x00#8 ∧ g.bytes[12 + 2]? = some 0x00#8 ∧
      g.bytes[12 + 3]? = some 0x00#8 :=
  ⟨⟨_, demoParams_boot _⟩, by decide, by decide⟩

theorem witness_BadEntryPointFaultsAtTheFirstStep :
    (∃ s, bootState (demoParams 0x1002#32) = some s) ∧ (demoParams 0x1002#32).entryPoint.toNat % 4 ≠ 0 ∧
    (∃ s, bootState (demoParams 0x1010#32) = some s) ∧ (demoParams 0x1010#32).entryPoint.toNat % 4 = 0 ∧
    ¬ ∃ g ∈ (demoParams 0x1010#32).regions, g.base.toNat ≤ (0x1010#32).toNat ∧
      (0x1010#32).toNat + 4 ≤ g.base.toNat + g.bytes.length :=
  ⟨⟨_, demoParams_boot _⟩, by decide, ⟨_, demoParams_boot _⟩, by decide, by decide⟩

theorem witness_StepKeepsThePcEven : (demoAt 0x0060006F).PcEven ∧
    ∃ t, step (demoAt 0x0060006F) = .next t := ⟨by unfold State.PcEven; decide, _, rfl⟩

/-- A state without a record, and the state that its step faults into. -/
theorem witness_FaultRecordsAreExplained : (∀ f, (demoAt 0x00131283).fault = some f →
    (demoAt 0x00131283).status = .faulted ∧ RecordExplained (demoAt 0x00131283) f) ∧
    ∃ t f, step (demoAt 0x00131283) = .next t ∧ t.fault = some f := by
  refine ⟨fun f h => ?_, _, _, rfl, rfl⟩
  have h0 : (demoAt 0x00131283).fault = none := by decide
  rw [h0] at h
  cases h

end Sys2Proof.Tests
end

section
/-! SUPPORT. What the operations on the state keep: the invariant, and the likeness of two states that differ
only in what no instruction reads. What reset leaves. -/

namespace Sys2Proof.Machine

open Sys2Proof

/-! ## The invariant -/

/-- The fault record of a running core is empty (spec R28). -/
theorem State.Inv.fault_eq_none {s : State} (h : s.Inv) (hs : s.status = .running) : s.fault = none := by
  have hnf : s.status ≠ .faulted := by simp [hs]
  exact Decidable.not_not.mp fun hf => hnf (h.faultIffFaulted.mp hf)

/-- A fault makes the record and the status together (spec R186). -/
theorem State.Inv.faulted {s : State} (h : s.Inv) (k : Fault) (inst : Option Word) :
    (faulted s k inst).Inv where
  memCanonical := h.memCanonical
  memBacked := h.memBacked
  regionsOk := h.regionsOk
  faultIffFaulted := iff_of_true (Option.some_ne_none _) rfl

theorem State.Inv.writeReg {s : State} (h : s.Inv) (rd : RegIdx) (v : Word) : (s.writeReg rd v).Inv where
  memCanonical := h.memCanonical
  memBacked := h.memBacked
  regionsOk := h.regionsOk
  faultIffFaulted := h.faultIffFaulted

/-- A checked access writes only inside one region, so every address it lists is backed (spec R49, R51). -/
theorem State.Inv.writeBytes {s : State} (h : s.Inv) {a : Word} {w : Width} (v : Word)
    (hc : checkAccess s.regions a w = .ok ()) :
    (s.setMem (Memory.writeBytes s.mem a.toNat v 0 w.bytes)).Inv where
  memCanonical := Memory.wf_writeBytes h.memCanonical _ _ _ _
  memBacked c hm := by
    rcases Memory.mem_writeBytes hm with ⟨hlo, hhi⟩ | hm
    · obtain ⟨r, hr, hbase, hstop⟩ := inRange_covers (checkAccess_ok.mp hc).2
      exact ⟨r, hr, by omega, by omega⟩
    · exact h.memBacked c hm
  regionsOk := h.regionsOk
  faultIffFaulted := h.faultIffFaulted

/-- A running core that commits is not Faulted and has no record (spec R28, R106). -/
theorem State.Inv.commit {s : State} (h : s.Inv) (hs : s.status = .running) (next : Word) :
    (s.commit next).Inv where
  memCanonical := h.memCanonical
  memBacked := h.memBacked
  regionsOk := h.regionsOk
  faultIffFaulted := iff_of_false (not_not.mpr (h.fault_eq_none hs)) (State.commit_not_faulted hs next)

/-- An instruction of a running core keeps the invariant. -/
theorem ExecShape.inv {i : Instr} {s t : State} (h : ExecShape i s t) (hi : s.Inv)
    (hs : s.status = .running) : t.Inv := by
  cases h with
  | fault a n k hd hc => exact hi.faulted k _
  | register rd v next hr hd => exact (hi.writeReg rd v).commit hs next
  | memory a n r hst hd hr hc => exact (hi.writeBytes _ hc).commit hs _
  | branch next hr hd => exact hi.commit hs next

/-- No instruction changes the region table (spec R44). -/
theorem ExecShape.regions_eq {i : Instr} {s t : State} (h : ExecShape i s t) : t.regions = s.regions := by
  cases h <;> rfl

/-- Only the destination of an instruction is written (spec R23). -/
theorem ExecShape.readReg_eq {i : Instr} {s t : State} (h : ExecShape i s t) {j : RegIdx}
    (hj : destReg i ≠ some j) : t.readReg j = s.readReg j := by
  cases h with
  | fault a n k hd hc => rfl
  | register rd v next hr hd =>
    refine sameRegsExcept_writeReg s rd v next j ?_
    rintro rfl
    exact hj hr
  | memory a n r hst hd hr hc => rfl
  | branch next hr hd => rfl

/-- An instruction of a running core is counted unless it faults (spec R27, R106). -/
theorem ExecShape.instret_eq {i : Instr} {s t : State} (h : ExecShape i s t) (hs : s.status = .running) :
    t.instret = if t.status = .faulted then s.instret else s.instret + 1 := by
  cases h with
  | fault a n k hd hc => rfl
  | register rd v next hr hd => exact (if_neg (State.commit_not_faulted (s := s.writeReg rd v) hs next)).symm
  | memory a n r hst hd hr hc => exact (if_neg (State.commit_not_faulted (s := s.setMem _) hs _)).symm
  | branch next hr hd => exact (if_neg (State.commit_not_faulted hs next)).symm

/-! ## States that differ only in status, instret and fault -/

section Congruence

variable {s t : State} (h : SameToPrograms s t)

include h

theorem SameToPrograms.readReg (i : RegIdx) : t.readReg i = s.readReg i := by
  obtain ⟨hregs, -, -, -⟩ := h
  simp only [State.readReg, hregs]

theorem SameToPrograms.effAddr (rs1 : RegIdx) (imm : BitVec 12) : t.effAddr rs1 imm = s.effAddr rs1 imm := by
  simp only [State.effAddr, h.readReg]

theorem SameToPrograms.nextPc : t.nextPc = s.nextPc := by
  obtain ⟨-, hpc, -, -⟩ := h
  simp only [State.nextPc, hpc]

theorem SameToPrograms.target {n : Nat} (off : BitVec n) : t.target off = s.target off := by
  obtain ⟨-, hpc, -, -⟩ := h
  simp only [State.target, hpc]

theorem SameToPrograms.mem_eq : t.mem = s.mem := by
  obtain ⟨-, -, hmem, -⟩ := h
  exact hmem

/-- The data access of a load or store is checked alike (spec R48, R49). -/
theorem SameToPrograms.checkAccess_effAddr (rs1 : RegIdx) (imm : BitVec 12) (w : Width) :
    checkAccess t.regions (t.effAddr rs1 imm) w = checkAccess s.regions (s.effAddr rs1 imm) w := by
  rw [h.effAddr]
  obtain ⟨-, -, -, hregions⟩ := h
  rw [hregions]

theorem SameToPrograms.writeReg (i : RegIdx) (v : Word) : SameToPrograms (s.writeReg i v) (t.writeReg i v) := by
  obtain ⟨hregs, hpc, hmem, hregions⟩ := h
  exact ⟨by simp only [State.writeReg, hregs], hpc, hmem, hregions⟩

theorem SameToPrograms.setMem (m : Memory) : SameToPrograms (s.setMem m) (t.setMem m) := by
  obtain ⟨hregs, hpc, -, hregions⟩ := h
  exact ⟨hregs, hpc, rfl, hregions⟩

theorem SameToPrograms.commit (next : Word) : SameToPrograms (s.commit next) (t.commit next) := by
  obtain ⟨hregs, -, hmem, hregions⟩ := h
  exact ⟨hregs, rfl, hmem, hregions⟩

theorem SameToPrograms.faulted (k : Fault) (inst : Option Word) :
    SameToPrograms (faulted s k inst) (faulted t k inst) := h

end Congruence

/-- Two answers that are next states which differ at most in status, instret and fault. -/
def SameAnswers (o p : Host.Outcome State Fault Refusal) : Prop :=
  ∃ s' t', o = .next s' ∧ p = .next t' ∧ SameToPrograms s' t'

section Answers

variable {s t : State} (h : SameToPrograms s t)

include h

theorem load_same (w : Width) (e : Extension) (i : Instr) (rd rs1 : RegIdx) (imm : BitVec 12) :
    SameAnswers (load w e i rd rs1 imm s) (load w e i rd rs1 imm t) := by
  have hct := h.checkAccess_effAddr rs1 imm w
  cases hc : checkAccess s.regions (s.effAddr rs1 imm) w with
  | error k => exact ⟨_, _, load_error hc, load_error (hct.trans hc), h.faulted k _⟩
  | ok u =>
    refine ⟨_, _, load_ok hc, load_ok (hct.trans hc), ?_⟩
    rw [h.effAddr, h.nextPc, h.mem_eq]
    exact (h.writeReg _ _).commit _

theorem store_same (w : Width) (i : Instr) (rs1 rs2 : RegIdx) (imm : BitVec 12) :
    SameAnswers (store w i rs1 rs2 imm s) (store w i rs1 rs2 imm t) := by
  have hct := h.checkAccess_effAddr rs1 imm w
  cases hc : checkAccess s.regions (s.effAddr rs1 imm) w with
  | error k => exact ⟨_, _, store_error hc, store_error (hct.trans hc), h.faulted k _⟩
  | ok u =>
    refine ⟨_, _, store_ok hc, store_ok (hct.trans hc), ?_⟩
    rw [h.effAddr, h.readReg, h.nextPc, h.mem_eq]
    exact (h.setMem _).commit _

/-- A result of the same operands goes to the same register. -/
theorem writeResult_same (rd : RegIdx) {v v' : Word} (hv : v' = v) :
    SameAnswers (writeResult rd v s) (writeResult rd v' t) := by
  refine ⟨_, _, rfl, rfl, ?_⟩
  rw [hv, h.nextPc]
  exact (h.writeReg rd v).commit _

theorem branch_same (c : Cond) (rs1 rs2 : RegIdx) (imm : BitVec 13) :
    SameAnswers (branch c rs1 rs2 imm s) (branch c rs1 rs2 imm t) := by
  refine ⟨_, _, rfl, rfl, ?_⟩
  rw [h.readReg, h.readReg, h.target, h.nextPc]
  exact h.commit _

theorem execJal_same (imm : BitVec 21) : SameAnswers (execJal imm s) (execJal imm t) := by
  refine ⟨_, _, rfl, rfl, ?_⟩
  rw [h.target, h.nextPc]
  exact (h.writeReg 1#5 _).commit _

/-- No instruction reads status, instret or the fault record (spec R20, R30). -/
theorem exec_same (i : Instr) : SameAnswers (exec i s) (exec i t) := by
  cases i with
  | lb rd rs1 imm => exact load_same h ..
  | lh rd rs1 imm => exact load_same h ..
  | lw rd rs1 imm => exact load_same h ..
  | lbu rd rs1 imm => exact load_same h ..
  | lhu rd rs1 imm => exact load_same h ..
  | sb rs1 rs2 imm => exact store_same h ..
  | sh rs1 rs2 imm => exact store_same h ..
  | sw rs1 rs2 imm => exact store_same h ..
  | addi rd rs1 imm => exact writeResult_same h rd (by rw [h.readReg])
  | slli rd rs1 shamt => exact writeResult_same h rd (by rw [h.readReg])
  | subi rd rs1 imm => exact writeResult_same h rd (by rw [h.readReg])
  | add rd rs1 rs2 => exact writeResult_same h rd (by rw [h.readReg, h.readReg])
  | mul rd rs1 rs2 => exact writeResult_same h rd (by rw [h.readReg, h.readReg])
  | sub rd rs1 rs2 => exact writeResult_same h rd (by rw [h.readReg, h.readReg])
  | lui rd imm => exact writeResult_same h rd rfl
  | jal imm => exact execJal_same h imm
  | beq rs1 rs2 imm => exact branch_same h ..
  | bne rs1 rs2 imm => exact branch_same h ..
  | blt rs1 rs2 imm => exact branch_same h ..
  | bge rs1 rs2 imm => exact branch_same h ..
  | bltu rs1 rs2 imm => exact branch_same h ..
  | bgeu rs1 rs2 imm => exact branch_same h ..

end Answers

/-! ## Reset -/

/-- A released reset had well-formed regions and leaves the reset state (spec R42, R216). -/
theorem bootState_eq_some {p : Params} {s : State} :
    bootState p = some s ↔ regionsWf (p.regions.map segmentRegion) ∧ s = resetWith p := by
  rw [bootState, Option.ite_none_right_eq_some, Option.some.injEq, eq_comm (a := s)]

/-- The registers after reset (spec R32). -/
theorem resetWith_readReg (p : Params) (j : RegIdx) :
    (resetWith p).readReg j = if j = 2#5 then p.stackTop else 0#32 := by
  have hj : (2 = j.toNat) ↔ j = 2#5 := by rw [eq_comm, ← BitVec.toNat_inj]; rfl
  simp only [State.readReg, resetWith, Vector.getElem_set, Vector.getElem_replicate, hj]

/-- The image is in memory after reset (spec R32, R41). -/
theorem byteIn_resetWith {p : Params} (hw : regionsWf (p.regions.map segmentRegion)) {g : Segment}
    (hg : g ∈ p.regions) {k : Nat} {b : Byte} (hb : g.bytes[k]? = some b) :
    byteIn (resetWith p) (g.base.toNat + k) = b := by
  obtain ⟨-, -, hdisjoint⟩ := hw
  exact Memory.byteAt_loadSegments hdisjoint hg hb

end Sys2Proof.Machine
end

section
/-! PROOFS. The statements of spec 10_state.md. -/

namespace Sys2Proof.Machine

open Sys2Proof

/-- Settles O50: a stopped core stays, a fault makes record and status together, and an instruction of a running
core writes memory only through a checked access. -/
theorem stepKeepsTheInvariant : Obligations.StepKeepsTheInvariant := by
  unfold Obligations.StepKeepsTheInvariant
  intro s t hi h
  rcases step_cases h with ⟨-, rfl⟩ | ⟨hs, -, ⟨k, -, rfl⟩ | ⟨w, r, -, -, rfl⟩ | ⟨w, i, -, -, hx⟩⟩
  · exact ⟨hi, rfl⟩
  · exact ⟨hi.faulted k _, rfl⟩
  · exact ⟨hi.faulted _ _, rfl⟩
  · have hshape := exec_cases hx
    exact ⟨hshape.inv hi hs, hshape.regions_eq⟩

/-- Settles O40, from the shapes of an instruction's answer. -/
theorem instructionsKeepOtherRegistersAndTheRegionTable :
    Obligations.InstructionsKeepOtherRegistersAndTheRegionTable := by
  unfold Obligations.InstructionsKeepOtherRegistersAndTheRegionTable
  intro i s
  obtain ⟨t, hx, hshape⟩ := exec_shape i s
  exact ⟨t, hx, fun j hj => hshape.readReg_eq hj, hshape.regions_eq⟩

/-- Settles O47: a fault counts nothing, and every other end of an instruction is a commit. -/
theorem counterCountsCompletedInstructions : Obligations.CounterCountsCompletedInstructions := by
  unfold Obligations.CounterCountsCompletedInstructions
  intro s t hs h
  rcases step_cases h with ⟨hn, -⟩ | ⟨-, -, ⟨k, -, rfl⟩ | ⟨w, r, -, -, rfl⟩ | ⟨w, i, -, -, hx⟩⟩
  · exact absurd hs hn
  · rfl
  · rfl
  · exact (exec_cases hx).instret_eq hs

/-- Settles O48, from the answers of each instruction in two such states. -/
theorem programsCannotSeeTheBookkeeping : Obligations.ProgramsCannotSeeTheBookkeeping := by
  unfold Obligations.ProgramsCannotSeeTheBookkeeping
  intro i s t s' t' h hs' ht'
  obtain ⟨u, v, hu, hv, huv⟩ := exec_same h i
  cases hs'.symm.trans hu
  cases ht'.symm.trans hv
  exact huv

/-- Settles O53: a released reset leaves `resetWith p`, whose regions do not overlap. -/
theorem resetLeavesTheTabledValues : Obligations.ResetLeavesTheTabledValues := by
  unfold Obligations.ResetLeavesTheTabledValues
  intro p s h
  obtain ⟨hw, rfl⟩ := bootState_eq_some.mp h
  exact ⟨resetWith_readReg p 2#5, fun j hj => by rw [resetWith_readReg, if_neg hj], rfl,
    fun g hg k b hb => byteIn_resetWith hw hg hb, rfl, rfl, rfl⟩

/-- Settles O39, for register 0 as for any other. -/
theorem registerWritesPersistRegisterZeroIncluded :
    Obligations.RegisterWritesPersistRegisterZeroIncluded := by
  unfold Obligations.RegisterWritesPersistRegisterZeroIncluded
  exact fun s i j v => ⟨State.readReg_writeReg s i j v, rfl⟩

/-- Settles O51: memory lists nothing, and the one region ends at the top of the address space. -/
theorem resetStateMeetsTheInvariant : Obligations.ResetStateMeetsTheInvariant := by
  unfold Obligations.ResetStateMeetsTheInvariant
  refine ⟨⟨⟨.nil, ?_⟩, ?_, ?_, ?_⟩, ?_⟩
  · exact List.forall_mem_nil _
  · exact List.forall_mem_nil _
  · decide
  · decide
  · unfold State.PcEven
    decide

end Sys2Proof.Machine
end

section
/-! SUPPORT. Memory as a store of numbers: the digits of a read, a read of what a write wrote, what an
instruction can do to a byte, and well-formed regions in terms of addresses. -/

namespace Sys2Proof.Machine

open Sys2Proof

/-! ## Reads of several bytes, digit by digit -/

/-- Digit `k` to the base 256 of the number read is the byte at `a + k` (spec R47, R50). -/
theorem Memory.readBytes_digit (m : Memory) (a : Nat) {n k : Nat} (hk : k < n) :
    Memory.readBytes m a n / 256 ^ k % 256 = (Memory.byteAt m (a + k)).toNat := by
  induction n generalizing a k with
  | zero => omega
  | succ n ih =>
    have hb := (Memory.byteAt m a).isLt
    cases k with
    | zero =>
      rw [Memory.readBytes, Nat.pow_zero, Nat.div_one, Nat.add_zero a]
      omega
    | succ k =>
      have hdiv : ((Memory.byteAt m a).toNat + 256 * Memory.readBytes m (a + 1) n) / 256 =
          Memory.readBytes m (a + 1) n := by omega
      rw [Memory.readBytes, Nat.pow_succ', ← Nat.div_div_eq_div_mul, hdiv, ih (a + 1) (by omega),
        Nat.add_right_comm, Nat.add_assoc]

/-- A read of `j` bytes from number `k` on of the `n` that were written gives these bytes of the value. -/
theorem Memory.readBytes_writeBytes (m : Memory) (a : Nat) (v : Word) {k j n : Nat} (h : k + j ≤ n) :
    Memory.readBytes (Memory.writeBytes m a v 0 n) (a + k) j = v.toNat / 256 ^ k % 256 ^ j := by
  induction j generalizing k with
  | zero => rw [Memory.readBytes, Nat.pow_zero, Nat.mod_one]
  | succ j ih =>
    have hrest := ih (k := k + 1) (by omega)
    rw [← Nat.add_assoc] at hrest
    rw [Memory.readBytes, hrest, Memory.byteAt_writeBytes, if_pos (by omega), Nat.add_sub_cancel_left,
      byteOf_toNat, Nat.pow_succ' (n := j), Nat.mod_mul, Nat.div_div_eq_div_mul, ← Nat.pow_succ]

/-! ## The access primitives as numbers -/

/-- A checked read gives the number in the bytes, of which no bit is lost (spec R50). -/
theorem memRead_ok_toNat {s : State} {a : Word} {w : Width} (h : checkAccess s.regions a w = .ok ()) :
    ∃ v, memRead s a w = .ok v ∧ v.toNat = Memory.readBytes s.mem a.toNat w.bytes :=
  ⟨_, memRead_ok h, BitVec.toNat_ofNat _ _ ▸ Nat.mod_eq_of_lt (readBytes_width_lt ..)⟩

/-- A checked fetch at `q` gives the word whose bytes are those at `q` to `q + 3` (spec R55). -/
theorem fetch_withPc {s : State} {q : Word} (h : checkAccess s.regions q .word = .ok ()) :
    ∃ v, fetch { s with pc := q } = .ok v ∧
      ∀ k, k < 4 → v.toNat / 256 ^ k % 256 = (byteIn s (q.toNat + k)).toNat := by
  obtain ⟨v, hv, hnat⟩ := memRead_ok_toNat (s := { s with pc := q }) h
  exact ⟨v, hv, fun k hk => hnat ▸ Memory.readBytes_digit _ _ hk⟩

/-- A completed access lies below the top of the address space (spec R42, R49). -/
theorem checkAccess_ok_le {rs : List Region} (hw : regionsWf rs) {a : Word} {w : Width}
    (h : checkAccess rs a w = .ok ()) : a.toNat + w.bytes ≤ addressSpaceSize := by
  obtain ⟨-, hin⟩ := checkAccess_ok.mp h
  obtain ⟨r, hr, -, hstop⟩ := inRange_covers hin
  obtain ⟨-, hbounds, -⟩ := hw
  obtain ⟨-, htop⟩ := hbounds r hr
  exact hstop.trans htop

/-- The address of some of the bytes of a completed access does not wrap. -/
theorem toNat_add_of_checkAccess {rs : List Region} (hw : regionsWf rs) {a : Word} {w w' : Width}
    (h : checkAccess rs a w = .ok ()) {k : Nat} (hk : k + w'.bytes ≤ w.bytes) :
    (a + BitVec.ofNat 32 k).toNat = a.toNat + k := by
  have hle := checkAccess_ok_le hw h
  have hpos := w'.bytes_pos
  simp only [addressSpaceSize] at hle
  rw [BitVec.toNat_add, BitVec.toNat_ofNat, Nat.add_mod_mod, Nat.mod_eq_of_lt (by omega)]

/-- An aligned access to some of the bytes of a completed access completes (spec R49, R54). -/
theorem checkAccess_within {rs : List Region} (hw : regionsWf rs) {a : Word} {w w' : Width}
    (h : checkAccess rs a w = .ok ()) {k : Nat} (hk : k + w'.bytes ≤ w.bytes)
    (ha : (a.toNat + k) % w'.bytes = 0) : checkAccess rs (a + BitVec.ofNat 32 k) w' = .ok () := by
  have hadd := toNat_add_of_checkAccess hw h hk
  obtain ⟨-, hin⟩ := checkAccess_ok.mp h
  obtain ⟨r, hr, hbase, hstop⟩ := inRange_covers hin
  rw [checkAccess_ok, hadd]
  exact ⟨ha, inRange_of_inside hw hr (by omega) (by omega)⟩

/-! ## Some of the bytes of a word -/

/-- The `w.bytes` bytes of `v` from number `k` on, as a number (spec R54). -/
def bytesFrom (v : Word) (k : Nat) (w : Width) : Word :=
  BitVec.ofNat 32 (v.toNat / 256 ^ k % 256 ^ w.bytes)

theorem bytesFrom_toNat (v : Word) (k : Nat) (w : Width) :
    (bytesFrom v k w).toNat = v.toNat / 256 ^ k % 256 ^ w.bytes := by
  have hlt : v.toNat / 256 ^ k % 256 ^ w.bytes < 2 ^ 32 :=
    ((Nat.mod_le ..).trans (Nat.div_le_self ..)).trans_lt v.isLt
  rw [bytesFrom, BitVec.toNat_ofNat, Nat.mod_eq_of_lt hlt]

theorem bytesFrom_byte (v : Word) (k : Nat) : bytesFrom v k .byte = (v >>> (8 * k)) &&& 0xFF#32 := by
  apply BitVec.eq_of_toNat_eq
  rw [bytesFrom_toNat, BitVec.toNat_and, BitVec.toNat_ushiftRight, Nat.shiftRight_eq_div_pow, Nat.pow_mul]
  exact (Nat.and_two_pow_sub_one_eq_mod _ 8).symm

theorem bytesFrom_lowHalf (v : Word) : bytesFrom v 0 .half = v &&& 0xFFFF#32 := by
  apply BitVec.eq_of_toNat_eq
  rw [bytesFrom_toNat, BitVec.toNat_and, Nat.pow_zero, Nat.div_one]
  exact (Nat.and_two_pow_sub_one_eq_mod _ 16).symm

theorem bytesFrom_highHalf (v : Word) : bytesFrom v 2 .half = v >>> 16 := by
  apply BitVec.eq_of_toNat_eq
  rw [bytesFrom_toNat, BitVec.toNat_ushiftRight, Nat.shiftRight_eq_div_pow]
  exact Nat.mod_eq_of_lt (Nat.div_lt_of_lt_mul v.isLt)

theorem bytesFrom_word (v : Word) : bytesFrom v 0 .word = v := by
  apply BitVec.eq_of_toNat_eq
  rw [bytesFrom_toNat, Nat.pow_zero, Nat.div_one]
  exact Nat.mod_eq_of_lt v.isLt

theorem extend_byte_sign_toInt (v : Word) :
    (extend .byte .sign (bytesFrom v 0 .byte)).toInt = (v.setWidth 8).toInt := by
  have hlow : (bytesFrom v 0 .byte).setWidth 8 = v.setWidth 8 := by
    apply BitVec.eq_of_toNat_eq
    rw [BitVec.toNat_setWidth, BitVec.toNat_setWidth, bytesFrom_toNat, Nat.pow_zero, Nat.div_one]
    exact Nat.mod_mod ..
  rw [extend, sext_toInt _ (by decide), hlow]

theorem extend_byte_zero_toNat (v : Word) :
    (extend .byte .zero (bytesFrom v 0 .byte)).toNat = v.toNat % 256 := by
  rw [extend, zext, BitVec.toNat_setWidth, BitVec.toNat_setWidth, bytesFrom_toNat, Width.bytes]
  omega

/-! ## Reads of written bytes -/

/-- A read of some of the bytes that a write wrote gives these bytes of the value (spec R54). -/
theorem memRead_within_memWrite {s t : State} {a v : Word} {w w' : Width} (hw : regionsWf s.regions)
    (h : memWrite s a w v = .ok t) {k : Nat} (hk : k + w'.bytes ≤ w.bytes)
    (ha : (a.toNat + k) % w'.bytes = 0) :
    memRead t (a + BitVec.ofNat 32 k) w' = .ok (bytesFrom v k w') := by
  obtain ⟨hc, ht⟩ := memWrite_cases h
  have hread : checkAccess t.regions (a + BitVec.ofNat 32 k) w' = .ok () := by
    rw [ht, State.setMem_regions]
    exact checkAccess_within hw hc hk ha
  rw [memRead_ok hread, ht, State.setMem_mem, toNat_add_of_checkAccess hw hc hk,
    Memory.readBytes_writeBytes _ _ _ hk, bytesFrom]

/-! ## A load after a store -/

/-- A load through the base and displacement of a completed store of its width gives the low bytes that were
stored, extended (spec R62). -/
theorem load_after_store {w : Width} {i : Instr} {rs1 rs2 : RegIdx} {imm : BitVec 12} {s : State}
    (h : checkAccess s.regions (s.effAddr rs1 imm) w = .ok ()) :
    ∃ t, store w i rs1 rs2 imm s = .next t ∧ ∀ (e : Extension) (j : Instr) (rd : RegIdx),
      ∃ u, load w e j rd rs1 imm t = .next u ∧
        u.readReg rd = extend w e (bytesFrom (s.readReg rs2) 0 w) := by
  refine ⟨_, store_ok h, fun e j rd => ⟨_, load_ok h, ?_⟩⟩
  rw [State.commit_readReg, State.readReg_writeReg_self]
  exact congrArg (fun n => extend w e (BitVec.ofNat 32 n))
    (Memory.readBytes_writeBytes s.mem (s.effAddr rs1 imm).toNat (s.readReg rs2) (k := 0) (Nat.zero_add _).le)

/-! ## What an instruction does to a byte -/

/-- A byte of memory after a write of `n` bytes (spec R51). -/
theorem byteIn_writeBytes (s : State) (a : Nat) (v : Word) (n b : Nat) :
    byteIn (s.setMem (Memory.writeBytes s.mem a v 0 n)) b =
      if a ≤ b ∧ b < a + n then byteOf v (b - a) else byteIn s b :=
  Memory.byteAt_writeBytes s.mem a v 0 n b

/-- A store whose access is checked writes its bytes and commits (spec R130). -/
theorem exec_store {i : Instr} {s : State} {r : RegIdx} {a : Word} {n : Width} (hr : storeSource i = some r)
    (hd : dataAccess s i = some (a, n)) (hc : checkAccess s.regions a n = .ok ()) :
    exec i s =
      .next ((s.setMem (Memory.writeBytes s.mem a.toNat (s.readReg r) 0 n.bytes)).commit s.nextPc) := by
  cases i with
  | sb rs1 rs2 imm => cases hr; cases hd; exact store_ok hc
  | sh rs1 rs2 imm => cases hr; cases hd; exact store_ok hc
  | sw rs1 rs2 imm => cases hr; cases hd; exact store_ok hc
  | _ => cases hr

/-- The region table and the bytes of memory after a store whose access is checked. -/
theorem byteIn_of_exec_store {i : Instr} {s t : State} {r : RegIdx} {a : Word} {n : Width}
    (hr : storeSource i = some r) (hd : dataAccess s i = some (a, n))
    (hc : checkAccess s.regions a n = .ok ()) (hx : exec i s = .next t) :
    t.regions = s.regions ∧ ∀ b, byteIn t b =
      if a.toNat ≤ b ∧ b < a.toNat + n.bytes then byteOf (s.readReg r) (b - a.toNat) else byteIn s b := by
  cases (exec_store hr hd hc).symm.trans hx
  exact ⟨rfl, byteIn_writeBytes s a.toNat (s.readReg r) n.bytes⟩

/-- An instruction that changes a byte is a store, and the byte is one of its access (spec R60). -/
theorem ExecShape.store_of_byteIn_ne {i : Instr} {s t : State} (h : ExecShape i s t) {b : Nat}
    (hb : byteIn t b ≠ byteIn s b) :
    ∃ a n, isStore i = true ∧ dataAccess s i = some (a, n) ∧ a.toNat ≤ b ∧ b < a.toNat + n.bytes := by
  cases h with
  | fault a n k hd hc => exact absurd rfl hb
  | register rd v next hr hd => exact absurd rfl hb
  | memory a n r hs hd hr hc =>
    by_cases hin : a.toNat ≤ b ∧ b < a.toNat + n.bytes
    · exact ⟨a, n, hs, hd, hin⟩
    · exact absurd ((byteIn_writeBytes ..).trans (if_neg hin)) hb
  | branch next hr hd => exact absurd rfl hb

/-! ## Well-formed regions in terms of addresses -/

/-- Two regions, of which none is empty, are disjoint when they back no common address (spec R42). -/
theorem Region.disjoint_iff {r q : Region} (hr : 1 ≤ r.len) (hq : 1 ≤ q.len) :
    r.disjoint q ↔ ¬ ∃ a, r.covers a ∧ q.covers a := by
  constructor
  · rintro h ⟨a, hra, hqa⟩
    omega
  · intro h
    have hrb : r.base.toNat < r.stop := Nat.lt_add_of_pos_right hr
    have hqb : q.base.toNat < q.stop := Nat.lt_add_of_pos_right hq
    by_contra hn
    rcases Nat.le_total r.base.toNat q.base.toNat with hle | hle
    · exact h ⟨q.base.toNat, ⟨hle, by omega⟩, ⟨le_rfl, hqb⟩⟩
    · exact h ⟨r.base.toNat, ⟨le_rfl, hrb⟩, ⟨hle, by omega⟩⟩

/-- A symmetric relation holds pairwise in a list when it holds between any two of its places. -/
theorem pairwise_iff_getElem?_ne {α : Type} {R : α → α → Prop} (hR : ∀ x y, R x y → R y x) {l : List α} :
    l.Pairwise R ↔ ∀ (m n : Nat) (x y : α), m ≠ n → l[m]? = some x → l[n]? = some y → R x y := by
  rw [List.pairwise_iff_getElem]
  constructor
  · intro h m n x y hmn hx hy
    obtain ⟨hm, rfl⟩ := List.getElem?_eq_some_iff.mp hx
    obtain ⟨hn, rfl⟩ := List.getElem?_eq_some_iff.mp hy
    rcases Nat.lt_or_gt_of_ne hmn with hlt | hgt
    · exact h m n hm hn hlt
    · exact hR _ _ (h n m hn hm hgt)
  · intro h m n hm hn hlt
    exact h m n _ _ hlt.ne (List.getElem?_eq_getElem hm) (List.getElem?_eq_getElem hn)

/-- Two segments back a common address (spec R42). -/
def segmentsOverlap (g q : Segment) : Prop :=
  ∃ a, (segmentRegion g).covers a ∧ (segmentRegion q).covers a

theorem not_segmentsOverlap_symm (g q : Segment) (h : ¬ segmentsOverlap g q) : ¬ segmentsOverlap q g :=
  fun ⟨a, hq, hg⟩ => h ⟨a, hg, hq⟩

/-- The regions of segments are well-formed when there is a segment, none is empty, none wraps, and no two at
different places overlap (spec R42). -/
theorem regionsWf_map_segmentRegion (gs : List Segment) :
    regionsWf (gs.map segmentRegion) ↔
      gs ≠ [] ∧ (∀ g ∈ gs, g.bytes ≠ []) ∧
      (∀ g ∈ gs, g.base.toNat + g.bytes.length ≤ addressSpaceSize) ∧
      ∀ (m n : Nat) (g q : Segment), m ≠ n → gs[m]? = some g → gs[n]? = some q → ¬ segmentsOverlap g q := by
  have hbounds : (∀ r ∈ gs.map segmentRegion, 1 ≤ r.len ∧ r.stop ≤ addressSpaceSize) ↔
      (∀ g ∈ gs, g.bytes ≠ []) ∧ ∀ g ∈ gs, g.base.toNat + g.bytes.length ≤ addressSpaceSize := by
    simp only [List.forall_mem_map, forall_and, segmentRegion, Nat.one_le_iff_ne_zero, ne_eq,
      List.length_eq_zero_iff]
  rw [regionsWf, hbounds, ne_eq (List.map _ _), List.map_eq_nil_iff, and_assoc,
    ← pairwise_iff_getElem?_ne not_segmentsOverlap_symm, List.pairwise_map]
  refine and_congr_right fun _ => and_congr_right fun hne => and_congr_right fun _ =>
    List.Pairwise.iff_of_mem fun {g q} hg hq => ?_
  exact Region.disjoint_iff (List.length_pos_iff.mpr (hne g hg)) (List.length_pos_iff.mpr (hne q hq))

/-- Loading the image keeps the canonical form and lists only addresses of segments (spec R32, R41). -/
theorem resetWith_inv {p : Params} (hw : regionsWf (p.regions.map segmentRegion)) : (resetWith p).Inv where
  memCanonical := Memory.wf_loadSegments ⟨.nil, List.forall_mem_nil _⟩ p.regions
  memBacked c hc := by
    rcases Memory.mem_loadSegments hc with ⟨g, hg, hcovers⟩ | hnil
    · exact ⟨segmentRegion g, List.mem_map_of_mem hg, hcovers⟩
    · cases hnil
  regionsOk := hw
  faultIffFaulted := iff_of_false (not_not.mpr rfl) Status.noConfusion

end Sys2Proof.Machine
end

section
/-! PROOFS. The statements of spec 20_memory.md. -/

namespace Sys2Proof.Machine

open Sys2Proof

/-- Settles O10, from the disjointness of the regions and the access check. -/
theorem accessIsInRangeInsideOneRegion : Obligations.AccessIsInRangeInsideOneRegion := by
  unfold Obligations.AccessIsInRangeInsideOneRegion
  intro rs a w hw
  have ⟨_, _, hdisjoint⟩ := hw
  refine ⟨fun r hr q hq hra hqa => covers_unique hdisjoint hr hq hra hqa, fun r => ?_, ?_, ?_⟩
  · exact ⟨regionOf_some, fun ⟨hr, hc⟩ => regionOf_eq hw hr hc⟩
  · exact ⟨inRange_covers, fun ⟨r, hr, hbase, hstop⟩ => inRange_of_inside hw hr hbase hstop⟩
  · rintro s rfl ha hout
    have hc := checkAccess_outOfRange ha hout
    exact ⟨memRead_error.mpr hc, fun v => memWrite_error.mpr hc⟩

/-- Settles O11: the access check in its order, then the bytes of each width. -/
theorem memReadIsLittleEndianAndChecked : Obligations.MemReadIsLittleEndianAndChecked := by
  unfold Obligations.MemReadIsLittleEndianAndChecked
  intro s a w
  refine ⟨fun ha => memRead_error.mpr (checkAccess_unaligned ha),
    fun ha hout => memRead_error.mpr (checkAccess_outOfRange ha hout), fun ha hin => ?_⟩
  obtain ⟨v, hv, hnat⟩ := memRead_ok_toNat (checkAccess_ok.mpr ⟨ha, hin⟩)
  refine ⟨v, hv, ?_⟩
  cases w with
  | byte => exact hnat.trans (Memory.readBytes_one ..)
  | half => exact hnat.trans (Memory.readBytes_two ..)
  | word => exact hnat.trans (Memory.readBytes_four ..)

/-- Settles O12: the access check in its order, then a read of one byte after the write. -/
theorem memWriteStoresTheLowBytes : Obligations.MemWriteStoresTheLowBytes := by
  unfold Obligations.MemWriteStoresTheLowBytes
  intro s a w v
  refine ⟨fun ha => memWrite_error.mpr (checkAccess_unaligned ha),
    fun ha hout => memWrite_error.mpr (checkAccess_outOfRange ha hout), fun ha hin => ?_⟩
  refine ⟨_, memWrite_ok (checkAccess_ok.mpr ⟨ha, hin⟩), fun k hk => ?_, fun b hb => ?_, rfl⟩
  · rw [byteIn_writeBytes, if_pos (by omega), Nat.add_sub_cancel_left, byteOf_toNat]
  · rw [byteIn_writeBytes, if_neg (by omega)]

/-- Settles O13: each read is one of some of the bytes that the word write wrote. -/
theorem mixedWidthReadsAfterAWordWrite : Obligations.MixedWidthReadsAfterAWordWrite := by
  unfold Obligations.MixedWidthReadsAfterAWordWrite
  intro s t a v hw h
  obtain ⟨hc, -⟩ := memWrite_cases h
  obtain ⟨ha, -⟩ : a.toNat % 4 = 0 ∧ _ := checkAccess_ok.mp hc
  refine ⟨fun k hk => ?_, ?_, ?_, ?_⟩
  · rw [← bytesFrom_byte]
    exact memRead_within_memWrite hw h hk (Nat.mod_one _)
  · rw [← bytesFrom_lowHalf, ← BitVec.add_zero a]
    exact memRead_within_memWrite hw h (by decide) (by simp only [Width.bytes]; omega)
  · rw [← bytesFrom_highHalf]
    exact memRead_within_memWrite hw h (by decide) (by simp only [Width.bytes]; omega)
  · rw [← BitVec.add_zero a]
    exact (memRead_within_memWrite hw h (by decide) ha).trans (congrArg _ (bytesFrom_word v))

/-- Settles O36: a load after a store of its width, extended as each load does. -/
theorem storedValuesLoadBack : Obligations.StoredValuesLoadBack := by
  unfold Obligations.StoredValuesLoadBack
  constructor
  · rintro rs1 rs2 rd imm s a rfl ha hin
    obtain ⟨t, ht, hload⟩ :=
      load_after_store (i := .sw rs1 rs2 imm) (rs2 := rs2) (checkAccess_ok.mpr ⟨ha, hin⟩)
    obtain ⟨u, hu, hrd⟩ := hload .zero (.lw rd rs1 imm) rd
    exact ⟨t, u, ht, hu, hrd.trans (bytesFrom_word _)⟩
  · rintro rs1 rs2 rd imm s a rfl hin
    obtain ⟨t, ht, hload⟩ :=
      load_after_store (i := .sb rs1 rs2 imm) (rs2 := rs2) (checkAccess_ok.mpr ⟨Nat.mod_one _, hin⟩)
    obtain ⟨u, hu, hsign⟩ := hload .sign (.lb rd rs1 imm) rd
    obtain ⟨v, hv, hzero⟩ := hload .zero (.lbu rd rs1 imm) rd
    refine ⟨t, u, v, ht, hu, ?_, hv, ?_⟩
    · rw [hsign, extend_byte_sign_toInt]
    · rw [hzero, extend_byte_zero_toNat]

/-- Settles O37: digit `k` of the fetched word is the byte at `q + k`, which the store wrote or left alone. -/
theorem storesAreSeenByTheNextFetch : Obligations.StoresAreSeenByTheNextFetch := by
  unfold Obligations.StoresAreSeenByTheNextFetch
  intro i s t r a q n hr hd hc hx hq hin
  obtain ⟨hregions, hbyte⟩ := byteIn_of_exec_store hr hd hc hx
  obtain ⟨v, hv, hdigit⟩ := fetch_withPc (s := t) (checkAccess_ok.mpr ⟨hq, hregions ▸ hin⟩)
  refine ⟨v, hv, fun k hk => (hdigit k hk).trans ?_⟩
  rw [hbyte, apply_ite BitVec.toNat, byteOf_toNat]

/-- Settles O41: a stopped core and a fault leave memory alone, and an instruction that changes a byte is a
store. -/
theorem onlyStoresChangeMemory : Obligations.OnlyStoresChangeMemory := by
  unfold Obligations.OnlyStoresChangeMemory
  intro s t b h hb
  rcases step_cases h with ⟨-, rfl⟩ | ⟨hs, -, ⟨k, -, rfl⟩ | ⟨w, r, -, -, rfl⟩ | ⟨w, i, hf, hd, hx⟩⟩
  · exact absurd rfl hb
  · exact absurd rfl hb
  · exact absurd rfl hb
  · obtain ⟨a, n, hstore, haccess, hlo, hhi⟩ := (exec_cases hx).store_of_byteIn_ne hb
    exact ⟨w, i, a, n, hs, hf, hd, hstore, haccess, hlo, hhi⟩

/-- Settles O52: a released reset leaves `resetWith p`, which meets the invariant. -/
theorem bootedCoreMeetsTheInvariant : Obligations.BootedCoreMeetsTheInvariant := by
  unfold Obligations.BootedCoreMeetsTheInvariant
  intro p s h
  obtain ⟨hw, rfl⟩ := bootState_eq_some.mp h
  exact resetWith_inv hw

/-- Settles O54: reset is released for well-formed regions, which are these conditions on the segments. -/
theorem resetIsRefusedForIllFormedRegions : Obligations.ResetIsRefusedForIllFormedRegions := by
  unfold Obligations.ResetIsRefusedForIllFormedRegions
  intro p
  simp only [bootState_eq_some, exists_and_left, exists_eq, and_true]
  exact regionsWf_map_segmentRegion p.regions

end Sys2Proof.Machine
end

section
/-! SUPPORT. The encoders are injective, so a word's fields are what it was built from; the decoder and the rows
of the opcode table say the same of a word; the rejected function codes of each class. -/

namespace Sys2Proof

/-! ## The encoders are injective -/

theorem append_bits_inj {n m : Nat} {x x' : BitVec n} {y y' : BitVec m} (h : x ++ y = x' ++ y') :
    x = x' ∧ y = y' := by
  have hhigh := congrArg (BitVec.extractLsb' m n) h
  have hlow := congrArg (BitVec.extractLsb' 0 m) h
  rw [BitVec.extractLsb'_append_eq_left, BitVec.extractLsb'_append_eq_left] at hhigh
  rw [BitVec.extractLsb'_append_eq_right, BitVec.extractLsb'_append_eq_right] at hlow
  exact ⟨hhigh, hlow⟩

/-- Two offsets that agree in two pieces side by side agree in the piece that these make up. -/
theorem extract_join {n lsb len len' : Nat} {v v' : BitVec n}
    (hlow : v.extractLsb' lsb len = v'.extractLsb' lsb len)
    (hhigh : v.extractLsb' (lsb + len) len' = v'.extractLsb' (lsb + len) len') :
    v.extractLsb' lsb (len' + len) = v'.extractLsb' lsb (len' + len) := by
  rw [← BitVec.extractLsb'_append_extractLsb'_eq_extractLsb' rfl, hlow, hhigh,
    BitVec.extractLsb'_append_extractLsb'_eq_extractLsb' rfl]

theorem eq_of_extract_all {n : Nat} {v v' : BitVec n} (h : v.extractLsb' 0 n = v'.extractLsb' 0 n) : v = v' := by
  rwa [BitVec.extractLsb'_eq_self, BitVec.extractLsb'_eq_self] at h

theorem extract_bit_zero {n : Nat} {v v' : BitVec n} (h : v.getLsbD 0 = v'.getLsbD 0) :
    v.extractLsb' 0 1 = v'.extractLsb' 0 1 := by
  apply BitVec.eq_of_getLsbD_eq
  intro i hi
  obtain rfl : i = 0 := by omega
  simpa using h

section
variable {f7 f7' op op' : BitVec 7} {rs2 rs2' rs1 rs1' rd rd' : RegIdx} {f3 f3' : BitVec 3}

theorem encodeR_inj (h : encodeR f7 rs2 rs1 f3 rd op = encodeR f7' rs2' rs1' f3' rd' op') :
    f7 = f7' ∧ rs2 = rs2' ∧ rs1 = rs1' ∧ f3 = f3' ∧ rd = rd' ∧ op = op' := by
  obtain ⟨h, hop⟩ := append_bits_inj h
  obtain ⟨h, hrd⟩ := append_bits_inj h
  obtain ⟨h, hf3⟩ := append_bits_inj h
  obtain ⟨h, hrs1⟩ := append_bits_inj h
  obtain ⟨hf7, hrs2⟩ := append_bits_inj h
  exact ⟨hf7, hrs2, hrs1, hf3, hrd, hop⟩

theorem encodeI_inj {imm imm' : BitVec 12} (h : encodeI imm rs1 f3 rd op = encodeI imm' rs1' f3' rd' op') :
    imm = imm' ∧ rs1 = rs1' ∧ f3 = f3' ∧ rd = rd' ∧ op = op' := by
  obtain ⟨h, hop⟩ := append_bits_inj h
  obtain ⟨h, hrd⟩ := append_bits_inj h
  obtain ⟨h, hf3⟩ := append_bits_inj h
  obtain ⟨himm, hrs1⟩ := append_bits_inj h
  exact ⟨himm, hrs1, hf3, hrd, hop⟩

theorem encodeS_inj {imm imm' : BitVec 12} (h : encodeS imm rs2 rs1 f3 op = encodeS imm' rs2' rs1' f3' op') :
    imm = imm' ∧ rs2 = rs2' ∧ rs1 = rs1' ∧ f3 = f3' ∧ op = op' := by
  obtain ⟨h, hop⟩ := append_bits_inj h
  obtain ⟨h, hlow⟩ := append_bits_inj h
  obtain ⟨h, hf3⟩ := append_bits_inj h
  obtain ⟨h, hrs1⟩ := append_bits_inj h
  obtain ⟨hhigh, hrs2⟩ := append_bits_inj h
  exact ⟨eq_of_extract_all (extract_join hlow hhigh), hrs2, hrs1, hf3, hop⟩

/-- Bit 0 of a branch offset has no place in the word. -/
theorem encodeB_inj {imm imm' : BitVec 13} (h0 : imm.getLsbD 0 = imm'.getLsbD 0)
    (h : encodeB imm rs2 rs1 f3 op = encodeB imm' rs2' rs1' f3' op') :
    imm = imm' ∧ rs2 = rs2' ∧ rs1 = rs1' ∧ f3 = f3' ∧ op = op' := by
  obtain ⟨h, hop⟩ := append_bits_inj h
  obtain ⟨h, h11⟩ := append_bits_inj h
  obtain ⟨h, h1⟩ := append_bits_inj h
  obtain ⟨h, hf3⟩ := append_bits_inj h
  obtain ⟨h, hrs1⟩ := append_bits_inj h
  obtain ⟨h, hrs2⟩ := append_bits_inj h
  obtain ⟨h12, h5⟩ := append_bits_inj h
  have himm := extract_join (extract_join (extract_join (extract_join (extract_bit_zero h0) h1) h5) h11) h12
  exact ⟨eq_of_extract_all himm, hrs2, hrs1, hf3, hop⟩

theorem encodeU_inj {imm imm' : BitVec 20} (h : encodeU imm rd op = encodeU imm' rd' op') :
    imm = imm' ∧ rd = rd' ∧ op = op' := by
  obtain ⟨h, hop⟩ := append_bits_inj h
  obtain ⟨himm, hrd⟩ := append_bits_inj h
  exact ⟨himm, hrd, hop⟩

/-- Bit 0 of a jump offset has no place in the word. -/
theorem encodeJ_inj {imm imm' : BitVec 21} (h0 : imm.getLsbD 0 = imm'.getLsbD 0)
    (h : encodeJ imm rd op = encodeJ imm' rd' op') : imm = imm' ∧ rd = rd' ∧ op = op' := by
  obtain ⟨h, hop⟩ := append_bits_inj h
  obtain ⟨h, hrd⟩ := append_bits_inj h
  obtain ⟨h, h12⟩ := append_bits_inj h
  obtain ⟨h, h11⟩ := append_bits_inj h
  obtain ⟨h20, h1⟩ := append_bits_inj h
  have himm := extract_join (extract_join (extract_join (extract_join (extract_bit_zero h0) h1) h11) h12) h20
  exact ⟨eq_of_extract_all himm, hrd, hop⟩

end

/-! ## The fields of an encoded word

A word is the encoding of its own fields (`encodeR_fields` and the like), so by injectivity these are the
values it was built from. -/

theorem fields_encodeR (f7 rs2 rs1 f3 rd op) : let w := encodeR f7 rs2 rs1 f3 rd op
    funct7Of w = f7 ∧ rs2Of w = rs2 ∧ rs1Of w = rs1 ∧ funct3Of w = f3 ∧ rdOf w = rd ∧ opcodeOf w = op :=
  encodeR_inj (encodeR_fields _)

theorem fields_encodeI (imm rs1 f3 rd op) : let w := encodeI imm rs1 f3 rd op
    immIOf w = imm ∧ rs1Of w = rs1 ∧ funct3Of w = f3 ∧ rdOf w = rd ∧ opcodeOf w = op :=
  encodeI_inj (encodeI_fields _)

theorem fields_encodeS (imm rs2 rs1 f3 op) : let w := encodeS imm rs2 rs1 f3 op
    immSOf w = imm ∧ rs2Of w = rs2 ∧ rs1Of w = rs1 ∧ funct3Of w = f3 ∧ opcodeOf w = op :=
  encodeS_inj (encodeS_fields _)

theorem fields_encodeB (imm : BitVec 13) (rs2 rs1 f3 op) (h : imm.getLsbD 0 = false) :
    let w := encodeB imm rs2 rs1 f3 op
    immBOf w = imm ∧ rs2Of w = rs2 ∧ rs1Of w = rs1 ∧ funct3Of w = f3 ∧ opcodeOf w = op :=
  encodeB_inj ((immBOf_getLsbD_zero _).trans h.symm) (encodeB_fields _)

theorem fields_encodeU (imm rd op) : let w := encodeU imm rd op
    immUOf w = imm ∧ rdOf w = rd ∧ opcodeOf w = op :=
  encodeU_inj (encodeU_fields _)

theorem fields_encodeJ (imm : BitVec 21) (rd op) (h : imm.getLsbD 0 = false) :
    let w := encodeJ imm rd op
    immJOf w = imm ∧ rdOf w = rd ∧ opcodeOf w = op :=
  encodeJ_inj ((immJOf_getLsbD_zero _).trans h.symm) (encodeJ_fields _)

/-! ## Decode and encode -/

theorem shamtOf_eq_rs2Of (w : Word) : shamtOf w = rs2Of w := rfl

/-- Class by class, from the fields of the encoded word. -/
theorem decode_encode {i : Instr} (h : i.wf = true) : decode (encode i) = .ok i := by
  cases i
  case lb | lh | lw | lbu | lhu => simp [encode, decode_load, decodeLoad, fields_encodeI]
  case sb | sh | sw => simp [encode, decode_store, decodeStore, fields_encodeS]
  case addi | subi => simp [encode, decode_opImm, decodeOpImm, fields_encodeI]
  case slli => simp [encode, decode_opImm, decodeOpImm, shamtOf_eq_rs2Of, fields_encodeR]
  case add | mul | sub => simp [encode, decode_op, decodeOp, fields_encodeR]
  case lui => simp [encode, decode_lui, fields_encodeU]
  case jal imm =>
    have h0 : imm.getLsbD 0 = false := by simpa [Instr.wf] using h
    simp [encode, decode_jal, fields_encodeJ _ _ _ h0]
  case beq imm | bne imm | blt imm | bge imm | bltu imm | bgeu imm =>
    have h0 : imm.getLsbD 0 = false := by simpa [Instr.wf] using h
    simp [encode, decode_branch, decodeBranch, fields_encodeB _ _ _ _ _ h0]

/-- What a word decodes to is well-formed: assembled offsets are even. -/
theorem wf_of_decode {w : Word} {i : Instr} (h : decode w = .ok i) : i.wf = true := by
  have hb : (!(immBOf w).getLsbD 0) = true := by rw [immBOf_getLsbD_zero]; rfl
  have hj : (!(immJOf w).getLsbD 0) = true := by rw [immJOf_getLsbD_zero]; rfl
  rcases decode_cases h with ⟨-, h⟩ | ⟨-, h⟩ | ⟨-, h⟩ | ⟨-, h⟩ | ⟨-, rfl⟩ | ⟨-, rfl⟩ | ⟨-, h⟩
  · rcases h with ⟨-, rfl⟩ | ⟨-, rfl⟩ | ⟨-, rfl⟩ | ⟨-, rfl⟩ | ⟨-, rfl⟩ <;> rfl
  · rcases h with ⟨-, rfl⟩ | ⟨-, rfl⟩ | ⟨-, rfl⟩ <;> rfl
  · rcases h with ⟨-, rfl⟩ | ⟨-, rfl⟩ | ⟨-, rfl⟩ <;> rfl
  · rcases h with ⟨-, -, rfl⟩ | ⟨-, -, rfl⟩ | ⟨-, rfl⟩ <;> rfl
  · rfl
  · exact hj
  · rcases h with ⟨-, rfl⟩ | ⟨-, rfl⟩ | ⟨-, rfl⟩ | ⟨-, rfl⟩ | ⟨-, rfl⟩ | ⟨-, rfl⟩ <;> exact hb

/-- The word is the encoding of its fields, but for the bits that the decoder does not read (spec R86). -/
theorem encode_of_decode {w : Word} {i : Instr} (h : decode w = .ok i) : encode i = w &&& i.careMask := by
  have hall : w &&& 0xFFFFFFFF#32 = w := BitVec.and_allOnes
  have hi : w &&& 0xFFFFFFFF#32 = _ := hall.trans (encodeI_fields w).symm
  have hs : w &&& 0xFFFFFFFF#32 = _ := hall.trans (encodeS_fields w).symm
  have hr : w &&& 0xFFFFFFFF#32 = _ := hall.trans (encodeR_fields w).symm
  have hb : w &&& 0xFFFFFFFF#32 = _ := hall.trans (encodeB_fields w).symm
  have hu : w &&& 0xFFFFFFFF#32 = _ := hall.trans (encodeU_fields w).symm
  rcases decode_cases h with ⟨ho, h⟩ | ⟨ho, h⟩ | ⟨ho, h⟩ | ⟨ho, h⟩ | ⟨ho, rfl⟩ | ⟨ho, rfl⟩ | ⟨ho, h⟩
  · rcases h with ⟨hf, rfl⟩ | ⟨hf, rfl⟩ | ⟨hf, rfl⟩ | ⟨hf, rfl⟩ | ⟨hf, rfl⟩ <;>
      rw [Instr.careMask, hi, ho, hf, encode]
  · rcases h with ⟨hf, rfl⟩ | ⟨hf, rfl⟩ | ⟨hf, rfl⟩ <;> rw [Instr.careMask, hs, ho, hf, encode]
  · rcases h with ⟨hf, rfl⟩ | ⟨hf, rfl⟩ | ⟨hf, rfl⟩
    · rw [Instr.careMask, hi, ho, hf, encode]
    · rw [Instr.careMask, and_ignoreFunct7Mask, ho, hf, encode, shamtOf_eq_rs2Of]
    · rw [Instr.careMask, hi, ho, hf, encode]
  · rcases h with ⟨hf, hf7, rfl⟩ | ⟨hf, hf7, rfl⟩ | ⟨hf, rfl⟩
    · rw [Instr.careMask, hr, ho, hf, hf7, encode]
    · rw [Instr.careMask, hr, ho, hf, hf7, encode]
    · rw [Instr.careMask, and_ignoreFunct7Mask, ho, hf, encode]
  · rw [Instr.careMask, hu, ho, encode]
  · rw [Instr.careMask, and_ignoreRdMask, ho, encode]
  · rcases h with ⟨hf, rfl⟩ | ⟨hf, rfl⟩ | ⟨hf, rfl⟩ | ⟨hf, rfl⟩ | ⟨hf, rfl⟩ | ⟨hf, rfl⟩ <;>
      rw [Instr.careMask, hb, ho, hf, encode]

/-! ## Rows of the opcode table (spec R85) -/

theorem row_mem_opcodeTable (i : Instr) : i.row ∈ opcodeTable := by
  cases i <;> simp [opcodeTable, Instr.row]

theorem exists_instr_of_mem_opcodeTable {r : OpcodeRow} (h : r ∈ opcodeTable) :
    ∃ i : Instr, i.wf = true ∧ i.row = r := by
  simp only [opcodeTable, List.cons_append, List.nil_append, List.mem_cons, List.not_mem_nil, or_false] at h
  rcases h with rfl | rfl | rfl | rfl | rfl | rfl | rfl | rfl | rfl | rfl | rfl | rfl | rfl | rfl | rfl |
    rfl | rfl | rfl | rfl | rfl | rfl | rfl <;> exact ⟨_, rfl, rfl⟩

/-- A word meets the row of the instruction that it decodes to. -/
theorem row_of_decode {w : Word} {i : Instr} (h : decode w = .ok i) : w &&& i.row.mask = i.row.pattern := by
  have h3 := and_funct3Mask w
  have h7 := and_funct7Mask w
  have hop := and_opcodeMask w
  rcases decode_cases h with ⟨ho, h⟩ | ⟨ho, h⟩ | ⟨ho, h⟩ | ⟨ho, h⟩ | ⟨ho, rfl⟩ | ⟨ho, rfl⟩ | ⟨ho, h⟩ <;>
    rw [ho] at h3 h7 hop
  · rcases h with ⟨hf, rfl⟩ | ⟨hf, rfl⟩ | ⟨hf, rfl⟩ | ⟨hf, rfl⟩ | ⟨hf, rfl⟩ <;> rw [hf] at h3 <;> exact h3
  · rcases h with ⟨hf, rfl⟩ | ⟨hf, rfl⟩ | ⟨hf, rfl⟩ <;> rw [hf] at h3 <;> exact h3
  · rcases h with ⟨hf, rfl⟩ | ⟨hf, rfl⟩ | ⟨hf, rfl⟩ <;> rw [hf] at h3 <;> exact h3
  · rcases h with ⟨hf, hf7, rfl⟩ | ⟨hf, hf7, rfl⟩ | ⟨hf, rfl⟩
    · rw [hf, hf7] at h7; exact h7
    · rw [hf, hf7] at h7; exact h7
    · rw [hf] at h3; exact h3
  · exact hop
  · exact hop
  · rcases h with ⟨hf, rfl⟩ | ⟨hf, rfl⟩ | ⟨hf, rfl⟩ | ⟨hf, rfl⟩ | ⟨hf, rfl⟩ | ⟨hf, rfl⟩ <;>
      rw [hf] at h3 <;> exact h3

section
variable {v w : Word}

theorem codes_of_funct3Mask (h : v &&& 0x0000707F#32 = w &&& 0x0000707F#32) :
    funct3Of w = funct3Of v ∧ opcodeOf w = opcodeOf v := by
  rw [and_funct3Mask, and_funct3Mask] at h
  obtain ⟨-, -, hf, -, ho⟩ := encodeI_inj h
  exact ⟨hf.symm, ho.symm⟩

theorem codes_of_funct7Mask (h : v &&& 0xFE00707F#32 = w &&& 0xFE00707F#32) :
    funct7Of w = funct7Of v ∧ funct3Of w = funct3Of v ∧ opcodeOf w = opcodeOf v := by
  rw [and_funct7Mask, and_funct7Mask] at h
  obtain ⟨hg, -, -, hf, -, ho⟩ := encodeR_inj h
  exact ⟨hg.symm, hf.symm, ho.symm⟩

theorem opcode_of_opcodeMask (h : v &&& 0x0000007F#32 = w &&& 0x0000007F#32) : opcodeOf w = opcodeOf v := by
  rw [and_opcodeMask, and_opcodeMask] at h
  obtain ⟨-, -, ho⟩ := encodeU_inj h
  exact ho.symm

/-- The bits that a row's mask asks for fix the row that a word decodes to. -/
theorem decode_of_same_rowBits {i : Instr} (hv : decode v = .ok i) (hm : v &&& i.row.mask = w &&& i.row.mask) :
    ∃ j, decode w = .ok j ∧ j.row = i.row ∧ j.careMask = i.careMask := by
  rcases decode_cases hv with ⟨ho, h⟩ | ⟨ho, h⟩ | ⟨ho, h⟩ | ⟨ho, h⟩ | ⟨ho, rfl⟩ | ⟨ho, rfl⟩ | ⟨ho, h⟩
  · rcases h with ⟨hf, rfl⟩ | ⟨hf, rfl⟩ | ⟨hf, rfl⟩ | ⟨hf, rfl⟩ | ⟨hf, rfl⟩ <;>
    · obtain ⟨hf', ho'⟩ := codes_of_funct3Mask hm
      have hw := decode_load (ho'.trans ho)
      rw [decodeLoad, hf', hf] at hw
      exact ⟨_, hw, rfl, rfl⟩
  · rcases h with ⟨hf, rfl⟩ | ⟨hf, rfl⟩ | ⟨hf, rfl⟩ <;>
    · obtain ⟨hf', ho'⟩ := codes_of_funct3Mask hm
      have hw := decode_store (ho'.trans ho)
      rw [decodeStore, hf', hf] at hw
      exact ⟨_, hw, rfl, rfl⟩
  · rcases h with ⟨hf, rfl⟩ | ⟨hf, rfl⟩ | ⟨hf, rfl⟩ <;>
    · obtain ⟨hf', ho'⟩ := codes_of_funct3Mask hm
      have hw := decode_opImm (ho'.trans ho)
      rw [decodeOpImm, hf', hf] at hw
      exact ⟨_, hw, rfl, rfl⟩
  · rcases h with ⟨hf, hg, rfl⟩ | ⟨hf, hg, rfl⟩ | ⟨hf, rfl⟩
    · obtain ⟨hg', hf', ho'⟩ := codes_of_funct7Mask hm
      have hw := decode_op (ho'.trans ho)
      rw [decodeOp, hf', hf, hg', hg] at hw
      exact ⟨_, hw, rfl, rfl⟩
    · obtain ⟨hg', hf', ho'⟩ := codes_of_funct7Mask hm
      have hw := decode_op (ho'.trans ho)
      rw [decodeOp, hf', hf, hg', hg] at hw
      exact ⟨_, hw, rfl, rfl⟩
    · obtain ⟨hf', ho'⟩ := codes_of_funct3Mask hm
      have hw := decode_op (ho'.trans ho)
      rw [decodeOp, hf', hf] at hw
      exact ⟨_, hw, rfl, rfl⟩
  · exact ⟨_, decode_lui ((opcode_of_opcodeMask hm).trans ho), rfl, rfl⟩
  · exact ⟨_, decode_jal ((opcode_of_opcodeMask hm).trans ho), rfl, rfl⟩
  · rcases h with ⟨hf, rfl⟩ | ⟨hf, rfl⟩ | ⟨hf, rfl⟩ | ⟨hf, rfl⟩ | ⟨hf, rfl⟩ | ⟨hf, rfl⟩ <;>
    · obtain ⟨hf', ho'⟩ := codes_of_funct3Mask hm
      have hw := decode_branch (ho'.trans ho)
      rw [decodeBranch, hf', hf] at hw
      exact ⟨_, hw, rfl, rfl⟩

/-- A word that meets the row of an instruction decodes to an instruction of that row. -/
theorem decode_of_row {i : Instr} (hi : i.wf = true) (h : w &&& i.row.mask = i.row.pattern) :
    ∃ j, decode w = .ok j ∧ j.row = i.row ∧ j.careMask = i.careMask :=
  have hd := decode_encode hi
  decode_of_same_rowBits hd ((row_of_decode hd).trans h.symm)

/-- The bits that a row's mask asks for are never ignored. -/
theorem careMask_and_rowMask (i : Instr) : i.careMask &&& i.row.mask = i.row.mask := by
  have hall (m : Word) : 0xFFFFFFFF#32 &&& m = m := BitVec.allOnes_and
  cases i
  case slli | sub | jal => rw [Instr.row, Instr.careMask]; decide
  all_goals exact hall _

/-- Words that differ only in ignored bits decode alike: both encode, those bits cleared, to the same word
(spec R86). -/
theorem decode_of_same_careBits {i : Instr} (hv : decode v = .ok i) (h : v &&& i.careMask = w &&& i.careMask) :
    decode w = .ok i := by
  have hm : v &&& i.row.mask = w &&& i.row.mask := by
    rw [← careMask_and_rowMask, ← BitVec.and_assoc, h, BitVec.and_assoc]
  obtain ⟨j, hw, -, hcare⟩ := decode_of_same_rowBits hv hm
  have hij : encode j = encode i := by rw [encode_of_decode hw, encode_of_decode hv, hcare, h]
  calc decode w = .ok j := hw
    _ = decode (encode j) := (decode_encode (wf_of_decode hw)).symm
    _ = decode (encode i) := by rw [hij]
    _ = .ok i := decode_encode (wf_of_decode hv)

theorem decode_of_mem_opcodeTable {r : OpcodeRow} (hr : r ∈ opcodeTable) (h : w &&& r.mask = r.pattern) :
    ∃ i, decode w = .ok i ∧ i.row = r := by
  obtain ⟨i, hi, rfl⟩ := exists_instr_of_mem_opcodeTable hr
  obtain ⟨j, hj, hrow, -⟩ := decode_of_row hi h
  exact ⟨j, hj, hrow⟩

theorem decode_eq_of_row {i : Instr} (hi : i.wf = true) (hm : v &&& i.careMask = w &&& i.careMask)
    (hv : v &&& i.row.mask = i.row.pattern) : decode v = decode w ∧ ∃ j, decode v = .ok j := by
  obtain ⟨j, hj, -, hcare⟩ := decode_of_row hi hv
  exact ⟨hj.trans (decode_of_same_careBits hj (hcare ▸ hm)).symm, j, hj⟩

end

/-! ## Rejected function codes (spec R88) -/

theorem funct3_cases (f : BitVec 3) :
    f = 0 ∨ f = 1 ∨ f = 2 ∨ f = 3 ∨ f = 4 ∨ f = 5 ∨ f = 6 ∨ f = 7 := by
  revert f; decide

theorem decodeLoad_unimplemented_iff (w : Word) : decodeLoad w = .error .unimplementedOperation ↔
    (funct3Of w).toNat ∈ [3, 6, 7] := by
  rcases funct3_cases (funct3Of w) with hf | hf | hf | hf | hf | hf | hf | hf <;> simp [decodeLoad, hf]

theorem decodeStore_unimplemented_iff (w : Word) : decodeStore w = .error .unimplementedOperation ↔
    3 ≤ (funct3Of w).toNat := by
  rcases funct3_cases (funct3Of w) with hf | hf | hf | hf | hf | hf | hf | hf <;> simp [decodeStore, hf]

theorem decodeOpImm_unimplemented_iff (w : Word) : decodeOpImm w = .error .unimplementedOperation ↔
    3 ≤ (funct3Of w).toNat := by
  rcases funct3_cases (funct3Of w) with hf | hf | hf | hf | hf | hf | hf | hf <;> simp [decodeOpImm, hf]

theorem decodeBranch_unimplemented_iff (w : Word) : decodeBranch w = .error .unimplementedOperation ↔
    (funct3Of w).toNat ∈ [2, 3] := by
  rcases funct3_cases (funct3Of w) with hf | hf | hf | hf | hf | hf | hf | hf <;> simp [decodeBranch, hf]

/-- Only funct3 0 looks at funct7 (spec R154). -/
theorem decodeOp_unimplemented_iff (w : Word) : decodeOp w = .error .unimplementedOperation ↔
    (funct3Of w = 0 ∧ 2 ≤ (funct7Of w).toNat) ∨ (funct3Of w ≠ 0 ∧ funct3Of w ≠ 2) := by
  unfold decodeOp
  split
  next hf =>
    split
    next hg => simp [hf, hg]
    next hg => simp [hf, hg]
    next hg0 hg1 =>
      have hne0 : funct7Of w ≠ 0#7 := hg0
      have hne1 : funct7Of w ≠ 1#7 := hg1
      exact iff_of_true rfl (.inl ⟨hf, by bv_omega⟩)
  next hf => simp [hf]
  next hf0 hf2 => exact iff_of_true rfl (.inr ⟨hf0, hf2⟩)

/-- Only the five classes with function codes reject a word as unimplemented. -/
theorem decode_unimplemented_iff (w : Word) : decode w = .error .unimplementedOperation ↔
    (opcodeOf w = 0b0000011#7 ∧ decodeLoad w = .error .unimplementedOperation) ∨
    (opcodeOf w = 0b0100011#7 ∧ decodeStore w = .error .unimplementedOperation) ∨
    (opcodeOf w = 0b0010011#7 ∧ decodeOpImm w = .error .unimplementedOperation) ∨
    (opcodeOf w = 0b0110011#7 ∧ decodeOp w = .error .unimplementedOperation) ∨
    (opcodeOf w = 0b1100011#7 ∧ decodeBranch w = .error .unimplementedOperation) := by
  unfold decode
  split_ifs with hload hstore hopImm hop hlui hjal hbranch
  · simp [hload, Config.opcLoad]
  · simp [hstore, Config.opcStore]
  · simp [hopImm, Config.opcOpImm]
  · simp [hop, Config.opcOp]
  · simp [hlui, Config.opcLui]
  · simp [hjal, Config.opcJal]
  · simp [hbranch, Config.opcBranch]
  · simp [hload, hstore, hopImm, hop, hbranch]

/-! ## Signed numbers -/

/-- A bit vector read as signed: the values from the sign bit on are the negative ones. -/
theorem toInt_eq_ite {n : Nat} (v : BitVec (n + 1)) :
    v.toInt = if v.toNat < 2 ^ n then (v.toNat : Int) else v.toNat - (2 ^ (n + 1) : Nat) := by
  rw [BitVec.toInt_eq_toNat_cond]
  refine if_congr ?_ rfl rfl
  omega

end Sys2Proof
end

section
/-! PROOFS. The statements of spec 30_encoding.md. -/

namespace Sys2Proof.Machine

open Sys2Proof

/-- Settles O3: the decoder finds in an encoded word the fields that it was built from. -/
theorem decodeOfEncodeIsIdentity : Obligations.DecodeOfEncodeIsIdentity := by
  unfold Obligations.DecodeOfEncodeIsIdentity
  exact fun _ h => decode_encode h

/-- Settles O2: the encoders are injective and a word is the encoding of its fields. -/
theorem formatFieldsRoundTrip : Obligations.FormatFieldsRoundTrip := by
  unfold Obligations.FormatFieldsRoundTrip
  exact ⟨fields_encodeR, fields_encodeI, fields_encodeS, fields_encodeB, fields_encodeU, fields_encodeJ⟩

/-- Settles O4, from the fields that the decoder reads. -/
theorem encodeOfDecodeKeepsTheReadBits : Obligations.EncodeOfDecodeKeepsTheReadBits := by
  unfold Obligations.EncodeOfDecodeKeepsTheReadBits
  exact fun _ _ h => ⟨wf_of_decode h, encode_of_decode h⟩

/-- Settles O5: meeting a row and decoding to an instruction of that row are the same, and a word decodes to one
instruction. -/
theorem theTableRowsAreExactlyTheInstructions : Obligations.TheTableRowsAreExactlyTheInstructions := by
  unfold Obligations.TheTableRowsAreExactlyTheInstructions
  refine ⟨fun w r hr q hq hwr hwq => ?_, fun w r hr h => decode_of_mem_opcodeTable hr h, fun w hnone => ?_⟩
  · obtain ⟨i, hi, rfl⟩ := decode_of_mem_opcodeTable hr hwr
    obtain ⟨j, hj, rfl⟩ := decode_of_mem_opcodeTable hq hwq
    cases hi.symm.trans hj
    rfl
  · cases hd : decode w with
    | error e => exact ⟨e, rfl⟩
    | ok i => exact absurd (row_of_decode hd) (hnone _ (row_mem_opcodeTable i))

/-- Settles O7: the function codes that each class of the decoder rejects, and the fault of a rejected word. -/
theorem unlistedFunctionCodesFault : Obligations.UnlistedFunctionCodesFault := by
  unfold Obligations.UnlistedFunctionCodesFault
  refine ⟨fun w => ?_, fun s w hs hr hf hd => ?_⟩
  · rw [decode_unimplemented_iff, decodeLoad_unimplemented_iff, decodeStore_unimplemented_iff,
      decodeOpImm_unimplemented_iff, decodeOp_unimplemented_iff, decodeBranch_unimplemented_iff]
  · exact (step_running hs hr).trans (fetchExecute_reject hf hd)

/-- Settles O8: these masks are the care masks of SLLI, SUB and JAL. -/
theorem ignoredBitsDoNotMatter : Obligations.IgnoredBitsDoNotMatter := by
  unfold Obligations.IgnoredBitsDoNotMatter
  refine ⟨fun v w hm hv => ?_, fun v w hm hv => ?_⟩
  · rcases hv with hslli | hsub
    · exact decode_eq_of_row (i := .slli 0 0 0) rfl hm hslli
    · exact decode_eq_of_row (i := .sub 0 0 0) rfl hm hsub
  · exact decode_eq_of_row (i := .jal 0) rfl hm hv

/-- Settles O9, from the immediates as numbers and sign extension. -/
theorem immediatesAreAssembledFromTheirFields : Obligations.ImmediatesAreAssembledFromTheirFields := by
  unfold Obligations.ImmediatesAreAssembledFromTheirFields
  intro w
  have hU : (immUpper (immUOf w)).toNat = w.toNat / 2 ^ 12 % 2 ^ 20 * 4096 := by
    rw [immUpper_toNat, immUOf, field_toNat]
  exact ⟨immSOf_toNat w, (sext_toInt _ (by decide)).trans (toInt_eq_ite (n := 11) (immSOf w)), immBOf_toNat w,
    (sext_toInt _ (by decide)).trans (toInt_eq_ite (n := 12) (immBOf w)), hU, immJOf_toNat w,
    (sext_toInt _ (by decide)).trans (toInt_eq_ite (n := 20) (immJOf w))⟩

/-- Settles O1, by running the decoder on the twelve words. -/
theorem specWordsDecode : Obligations.SpecWordsDecode := by
  unfold Obligations.SpecWordsDecode
  exact ⟨rfl, rfl, rfl, rfl, rfl, rfl, rfl, rfl, rfl, rfl, rfl, rfl⟩

end Sys2Proof.Machine
end

section
/-! SUPPORT. When the decoder rejects an opcode, the fetched word in terms of the bytes at pc, and the next pc
and the status after an instruction that completes. -/

namespace Sys2Proof

/-! ## Rejected opcodes (spec R104)

A class of the decoder rejects function codes alone. -/

theorem decodeLoad_ne_unknown (w : Word) : decodeLoad w ≠ .error .unknownOpcode := by
  unfold decodeLoad
  split <;> simp

theorem decodeStore_ne_unknown (w : Word) : decodeStore w ≠ .error .unknownOpcode := by
  unfold decodeStore
  split <;> simp

theorem decodeOpImm_ne_unknown (w : Word) : decodeOpImm w ≠ .error .unknownOpcode := by
  unfold decodeOpImm
  split <;> simp

theorem decodeOp_ne_unknown (w : Word) : decodeOp w ≠ .error .unknownOpcode := by
  unfold decodeOp
  split
  · split <;> simp
  · simp
  · simp

theorem decodeBranch_ne_unknown (w : Word) : decodeBranch w ≠ .error .unknownOpcode := by
  unfold decodeBranch
  split <;> simp

/-- A word is rejected for its opcode when it belongs to none of the seven classes. -/
theorem decode_unknown_iff (w : Word) : decode w = .error .unknownOpcode ↔
    opcodeOf w ∉ [Config.opcLoad, Config.opcOpImm, Config.opcStore, Config.opcOp, Config.opcLui,
      Config.opcBranch, Config.opcJal] := by
  unfold decode
  split_ifs with hload hstore hopImm hop hlui hjal hbranch
  · simp [decodeLoad_ne_unknown, hload]
  · simp [decodeStore_ne_unknown, hstore]
  · simp [decodeOpImm_ne_unknown, hopImm]
  · simp [decodeOp_ne_unknown, hop]
  · simp [hlui]
  · simp [hjal]
  · simp [decodeBranch_ne_unknown, hbranch]
  · simp [hload, hstore, hopImm, hop, hlui, hjal, hbranch]

/-- Four bytes are one instruction when their little-endian word decodes to it. -/
theorem decode_of_decodeBytes {b0 b1 b2 b3 : Byte} {i : Instr} {rest : List Byte}
    (h : decodeBytes [b0, b1, b2, b3] = .ok (i, rest)) : decode (wordOfBytes b0 b1 b2 b3) = .ok i := by
  rw [decodeBytes] at h
  split at h
  next j hj => cases h; exact hj
  next => cases h

end Sys2Proof

namespace Sys2Proof.Machine

open Sys2Proof

/-! ## The fetched word -/

/-- A checked fetch reads the little-endian word of the four bytes at `pc` (spec R55, R102). -/
theorem fetch_eq_wordOfBytes {s : State} (h : checkAccess s.regions s.pc .word = .ok ()) :
    fetch s = .ok (wordOfBytes (byteIn s s.pc.toNat) (byteIn s (s.pc.toNat + 1)) (byteIn s (s.pc.toNat + 2))
      (byteIn s (s.pc.toNat + 3))) := by
  obtain ⟨v, hv, hnat⟩ := memRead_ok_toNat h
  have hword := hnat.trans (Memory.readBytes_four ..)
  rw [fetch, hv, BitVec.eq_of_toNat_eq (hword.trans (wordOfBytes_eq ..).symm)]
  rfl

/-- The first fetch after reset reads the word of the four bytes of the image at ENTRY_POINT (spec R102, R211). -/
theorem fetch_resetWith {p : Params} (hw : regionsWf (p.regions.map segmentRegion)) {g : Segment}
    (hg : g ∈ p.regions) {k : Nat} (ha : p.entryPoint.toNat % 4 = 0)
    (he : p.entryPoint.toNat = g.base.toNat + k) {b0 b1 b2 b3 : Byte} (h0 : g.bytes[k]? = some b0)
    (h1 : g.bytes[k + 1]? = some b1) (h2 : g.bytes[k + 2]? = some b2) (h3 : g.bytes[k + 3]? = some b3) :
    fetch (resetWith p) = .ok (wordOfBytes b0 b1 b2 b3) := by
  obtain ⟨hlen, -⟩ := List.getElem?_eq_some_iff.mp h3
  have hstop : p.entryPoint.toNat + 4 ≤ (segmentRegion g).stop := by
    simp only [segmentRegion, Region.stop]
    omega
  have hin : inRange (resetWith p).regions p.entryPoint .word = true :=
    inRange_of_inside hw (List.mem_map_of_mem hg) (he ▸ Nat.le_add_right _ k) hstop
  have hpc : (resetWith p).pc.toNat = g.base.toNat + k := he
  rw [fetch_eq_wordOfBytes (checkAccess_ok.mpr ⟨ha, hin⟩), hpc, Nat.add_assoc, Nat.add_assoc, Nat.add_assoc,
    byteIn_resetWith hw hg h0, byteIn_resetWith hw hg h1, byteIn_resetWith hw hg h2, byteIn_resetWith hw hg h3]

/-! ## The next pc and the halt test of an instruction that completes -/

section Completion

variable {s t : State}

theorem load_pc {w : Width} {e : Extension} {i : Instr} {rd rs1 : RegIdx} {imm : BitVec 12}
    (h : load w e i rd rs1 imm s = .next t) (hnf : t.status ≠ .faulted) : t.pc = s.nextPc := by
  cases hc : checkAccess s.regions (s.effAddr rs1 imm) w with
  | error k => cases (load_error hc).symm.trans h; exact absurd rfl hnf
  | ok u => cases (load_ok hc).symm.trans h; rfl

theorem store_pc {w : Width} {i : Instr} {rs1 rs2 : RegIdx} {imm : BitVec 12}
    (h : store w i rs1 rs2 imm s = .next t) (hnf : t.status ≠ .faulted) : t.pc = s.nextPc := by
  cases hc : checkAccess s.regions (s.effAddr rs1 imm) w with
  | error k => cases (store_error hc).symm.trans h; exact absurd rfl hnf
  | ok u => cases (store_ok hc).symm.trans h; rfl

theorem writeResult_pc {rd : RegIdx} {v : Word} (h : writeResult rd v s = .next t) : t.pc = s.nextPc := by
  cases h
  rfl

theorem execJal_pc {imm : BitVec 21} (h : execJal imm s = .next t) : t.pc = s.target imm := by
  cases h
  rfl

/-- A branch stays where it is when it is taken with offset 0: `pc + 4` is another address (spec R107). -/
theorem branch_pc_eq_pc {c : Cond} {rs1 rs2 : RegIdx} {imm : BitVec 13} (h : branch c rs1 rs2 imm s = .next t) :
    t.pc = s.pc ↔ imm = 0#13 ∧ c.holds (s.readReg rs1) (s.readReg rs2) = true := by
  have hpc : t.pc = if c.holds (s.readReg rs1) (s.readReg rs2) then s.target imm else s.nextPc := by
    cases h
    rfl
  rw [hpc]
  split
  next htaken => simp [s.target_eq_pc imm (by decide), htaken]
  next hnot => simp [s.nextPc_ne_pc, hnot]

/-- JAL with offset 0 links and commits its own address (spec R107, R166). -/
theorem exec_jal_zero (s : State) :
    exec (.jal 0#21) s = .next ((s.writeReg 1#5 s.nextPc).commit s.pc) := by
  rw [← (s.target_eq_pc 0#21 (by decide)).mpr rfl]
  rfl

/-- An instruction that completes leads to its own address exactly when it transfers control there (spec R107). -/
theorem exec_pc_eq_pc {i : Instr} (h : exec i s = .next t) (hnf : t.status ≠ .faulted) :
    t.pc = s.pc ↔ selfTransfer s i := by
  cases i
  case lb | lh | lw | lbu | lhu =>
    exact iff_of_false (load_pc h hnf ▸ s.nextPc_ne_pc) id
  case sb | sh | sw =>
    exact iff_of_false (store_pc h hnf ▸ s.nextPc_ne_pc) id
  case addi | slli | subi | add | mul | sub | lui =>
    exact iff_of_false (writeResult_pc h ▸ s.nextPc_ne_pc) id
  case jal imm =>
    rw [execJal_pc h]
    exact s.target_eq_pc imm (by decide)
  case beq | bne | blt | bge | bltu | bgeu =>
    exact (branch_pc_eq_pc h).trans (and_congr_right fun _ => decide_eq_true_iff)

/-- The halt test of every instruction that completes (spec R106, R107). -/
theorem ExecShape.status_eq {i : Instr} (h : ExecShape i s t) (hnf : t.status ≠ .faulted) :
    t.status = if t.pc = s.pc then .halted else s.status := by
  cases h with
  | fault a n k hd hc => exact absurd rfl hnf
  | register rd v next hr hd => rfl
  | memory a n r hst hd hr hc => rfl
  | branch next hr hd => rfl

end Completion

/-- A commit of the own address halts (spec R107). -/
@[simp] theorem State.commit_self_status (s : State) : (s.commit s.pc).status = .halted := if_pos rfl

/-- A halted run gives back its count (spec R110, R221). -/
theorem State.result_halted {s : State} (h : s.status = .halted) : s.result = some (.summary s.instret) := by
  simp only [State.result, h]

end Sys2Proof.Machine
end

section
/-! PROOFS. The statements of spec 40_fetch_execute_step.md. -/

namespace Sys2Proof.Machine

open Sys2Proof

/-- Settles O6: no class of the decoder rejects an opcode, and a rejected word faults. -/
theorem unknownOpcodesFault : Obligations.UnknownOpcodesFault := by
  unfold Obligations.UnknownOpcodesFault
  refine ⟨decode_unknown_iff, fun s w hs hr hf hop => ?_⟩
  exact (step_running hs hr).trans (fetchExecute_reject hf ((decode_unknown_iff w).mpr hop))

/-- Settles O46: the halt test compares the next pc with the old one, and the two are equal only for a transfer
of control to the instruction itself. -/
theorem haltsExactlyOnATransferToItself : Obligations.HaltsExactlyOnATransferToItself := by
  unfold Obligations.HaltsExactlyOnATransferToItself
  intro i s t hs h hnf
  refine ⟨?_, exec_pc_eq_pc h hnf⟩
  rw [(exec_cases h).status_eq hnf, hs]
  by_cases hpc : t.pc = s.pc <;> simp [hpc]

/-- Settles O55: the four bytes of the image are the fetched word, which is JAL with offset 0. -/
theorem selfJumpHaltsAfterOneInstruction : Obligations.SelfJumpHaltsAfterOneInstruction := by
  unfold Obligations.SelfJumpHaltsAfterOneInstruction
  intro p s g k hboot ha hg he h0 h1 h2 h3
  obtain ⟨hw, rfl⟩ := bootState_eq_some.mp hboot
  have hfetch : fetch (resetWith p) = .ok 0x0000006F#32 := fetch_resetWith hw hg ha he h0 h1 h2 h3
  have hstep : step (resetWith p) = exec (.jal 0#21) (resetWith p) :=
    (step_running rfl hw).trans (fetchExecute_exec hfetch rfl)
  have hhalted := State.commit_self_status ((resetWith p).writeReg 1#5 (resetWith p).nextPc)
  exact ⟨_, hstep.trans (exec_jal_zero _), State.readReg_writeReg_self .., rfl, rfl, hhalted,
    State.result_halted hhalted⟩

/-- Settles O44: the fetched word is that of the four bytes at pc. -/
theorem stepRunsTheDecodedInstruction : Obligations.StepRunsTheDecodedInstruction := by
  unfold Obligations.StepRunsTheDecodedInstruction
  intro s i hs hr ha hin hd
  have hfetch := fetch_eq_wordOfBytes (checkAccess_ok.mpr ⟨ha, hin⟩)
  exact (step_running hs hr).trans (fetchExecute_exec hfetch (decode_of_decodeBytes hd))

/-- Settles O45: a step looks at the status first. -/
theorem stoppedCoreDoesNotChange : Obligations.StoppedCoreDoesNotChange := by
  unfold Obligations.StoppedCoreDoesNotChange
  rintro s (hs | hs)
  · exact step_stopped (by simp [hs])
  · exact step_stopped (by simp [hs])

end Sys2Proof.Machine
end

section
/-! SUPPORT. Words of a format I row decode to its instruction; the number that a load extends, and what a load
does when its access is checked and when it is not. -/

namespace Sys2Proof

/-- A word that meets the row with the codes of `p` decodes to the instruction that its format I fields encode
(spec R85, R93). -/
theorem decode_of_formatIRow {w p : Word} {i : Instr} (hi : i.wf = true) (h : w &&& 0x0000707F#32 = p)
    (he : encode i = encodeI (field w 20 12) (field w 15 5) (funct3Of p) (field w 7 5) (opcodeOf p)) :
    decode w = .ok i := by
  have hp : p &&& 0x0000707F#32 = w &&& 0x0000707F#32 := by rw [← h, BitVec.and_assoc, BitVec.and_self]
  obtain ⟨hf, ho⟩ := codes_of_funct3Mask hp
  have hw : encode i = w := by
    rw [he, ← hf, ← ho]
    exact encodeI_fields w
  exact hw ▸ decode_encode hi

end Sys2Proof

namespace Sys2Proof.Machine

open Sys2Proof

/-! ## The extension of loaded bytes -/

/-- Zero extension keeps a number of `w.bytes` bytes (spec R120). -/
theorem extend_zero_toNat {w : Width} {v : Word} (h : v.toNat < 256 ^ w.bytes) :
    (extend w .zero v).toNat = v.toNat := by
  cases w
  case byte | half =>
    rw [extend, zext, BitVec.toNat_setWidth, BitVec.toNat_setWidth]
    rw [Width.bytes] at h
    omega
  case word => rfl

/-- A zero-extended read is the number in the bytes (spec R120). -/
theorem extend_zero_readBytes (m : Memory) (a : Nat) (w : Width) :
    (extend w .zero (BitVec.ofNat 32 (Memory.readBytes m a w.bytes))).toNat = Memory.readBytes m a w.bytes := by
  have hread : (BitVec.ofNat 32 (Memory.readBytes m a w.bytes)).toNat = Memory.readBytes m a w.bytes :=
    (BitVec.toNat_ofNat ..).trans (Nat.mod_eq_of_lt (readBytes_width_lt m a w))
  rw [extend_zero_toNat (hread.trans_lt (Memory.readBytes_lt m a w.bytes)), hread]

/-- The sign extension of one byte is the byte read as a signed number (spec R121). -/
theorem extend_sign_readByte (m : Memory) (a : Nat) :
    (extend .byte .sign (BitVec.ofNat 32 (Memory.readBytes m a 1))).toInt = (Memory.byteAt m a).toInt := by
  rw [extend, sext_toInt _ (by decide), BitVec.setWidth_ofNat_of_le (by decide), Memory.readBytes_one,
    BitVec.ofNat_toNat, BitVec.setWidth_eq]

/-- The sign extension of two bytes: the values from `0x8000` on are the negative ones (spec R122). -/
theorem extend_sign_readHalf (m : Memory) (a : Nat) :
    (extend .half .sign (BitVec.ofNat 32 (Memory.readBytes m a 2))).toInt =
      if Memory.readBytes m a 2 < 32768 then (Memory.readBytes m a 2 : Int) else Memory.readBytes m a 2 - 65536 := by
  have hlt : Memory.readBytes m a 2 < 2 ^ (15 + 1) := Memory.readBytes_lt m a 2
  rw [extend, sext_toInt _ (by decide), BitVec.setWidth_ofNat_of_le (by decide), toInt_eq_ite,
    BitVec.toNat_ofNat, Nat.mod_eq_of_lt hlt]
  rfl

/-! ## What a load does -/

section Load

variable {w : Width} {e : Extension} {i : Instr} {rd rs1 : RegIdx} {imm : BitVec 12} {s : State}

theorem isEffectiveAddress_effAddr (s : State) (rs1 : RegIdx) (imm : BitVec 12) :
    IsEffectiveAddress s rs1 imm (s.effAddr rs1 imm) :=
  add_sext_toNat _ imm (by decide)

/-- A load whose access is aligned and in range writes the extended bytes to `x[rd]` and nothing else, and the
run goes on (spec R120). -/
theorem load_completes (ha : (s.effAddr rs1 imm).toNat % w.bytes = 0)
    (hin : inRange s.regions (s.effAddr rs1 imm) w = true) :
    ∃ t, load w e i rd rs1 imm s = .next t ∧
      t.readReg rd =
        extend w e (BitVec.ofNat 32 (Memory.readBytes s.mem (s.effAddr rs1 imm).toNat w.bytes)) ∧
      SameRegsExcept s t rd ∧ SameBytes s t ∧ Advances s t :=
  ⟨_, load_ok (checkAccess_ok.mpr ⟨ha, hin⟩), State.readReg_writeReg_self .., sameRegsExcept_writeReg _ _ _ _,
    fun _ => rfl, advances_writeReg ..⟩

theorem load_unaligned (ha : (s.effAddr rs1 imm).toNat % w.bytes ≠ 0) :
    load w e i rd rs1 imm s = .next (faulted s .unalignedAccess (some (encode i))) :=
  load_error (checkAccess_unaligned ha)

theorem load_outOfRange (ha : (s.effAddr rs1 imm).toNat % w.bytes = 0)
    (hout : inRange s.regions (s.effAddr rs1 imm) w = false) :
    load w e i rd rs1 imm s = .next (faulted s .outOfRangeAccess (some (encode i))) :=
  load_error (checkAccess_outOfRange ha hout)

end Load

end Sys2Proof.Machine
end

section
/-! PROOFS. The statements of spec 41_loads.md. -/

namespace Sys2Proof.Machine

open Sys2Proof

/-- Settles O14: a byte access is always aligned, and the byte is extended with its sign. -/
theorem lbLoadsASignedByte : Obligations.LbLoadsASignedByte := by
  unfold Obligations.LbLoadsASignedByte
  refine ⟨fun w h => decode_of_formatIRow rfl h rfl, ?_⟩
  rintro rd rs1 imm s a rfl
  refine ⟨isEffectiveAddress_effAddr .., fun hin => ?_, load_outOfRange (Nat.mod_one _)⟩
  obtain ⟨t, ht, hrd, hframe⟩ := load_completes (Nat.mod_one _) hin
  exact ⟨t, ht, hrd ▸ extend_sign_readByte .., hframe⟩

/-- Settles O15: the two bytes are extended with the sign of their number. -/
theorem lhLoadsASignedHalfWord : Obligations.LhLoadsASignedHalfWord := by
  unfold Obligations.LhLoadsASignedHalfWord
  refine ⟨fun w h => decode_of_formatIRow rfl h rfl, ?_⟩
  rintro rd rs1 imm s a rfl
  refine ⟨isEffectiveAddress_effAddr .., fun ha hin => ?_, load_unaligned (w := .half),
    load_outOfRange (w := .half)⟩
  obtain ⟨t, ht, hrd, hframe⟩ := load_completes (w := .half) ha hin
  refine ⟨t, ht, ?_, hframe⟩
  rw [hrd, Width.bytes, extend_sign_readHalf, Memory.readBytes_two]
  rfl

/-- Settles O16: the four bytes are a word, which needs no extension. -/
theorem lwLoadsAWord : Obligations.LwLoadsAWord := by
  unfold Obligations.LwLoadsAWord
  refine ⟨fun w h => decode_of_formatIRow rfl h rfl, ?_⟩
  rintro rd rs1 imm s a rfl
  refine ⟨isEffectiveAddress_effAddr .., fun ha hin => ?_, load_unaligned (w := .word),
    load_outOfRange (w := .word)⟩
  obtain ⟨t, ht, hrd, hframe⟩ := load_completes (w := .word) ha hin
  refine ⟨t, ht, ?_, hframe⟩
  rw [hrd, extend_zero_readBytes]
  exact Memory.readBytes_four ..

/-- Settles O17: a byte access is always aligned, and zero extension keeps the number in the byte. -/
theorem lbuLoadsAnUnsignedByte : Obligations.LbuLoadsAnUnsignedByte := by
  unfold Obligations.LbuLoadsAnUnsignedByte
  refine ⟨fun w h => decode_of_formatIRow rfl h rfl, ?_⟩
  rintro rd rs1 imm s a rfl
  refine ⟨isEffectiveAddress_effAddr .., fun hin => ?_, load_outOfRange (Nat.mod_one _)⟩
  obtain ⟨t, ht, hrd, hframe⟩ := load_completes (Nat.mod_one _) hin
  refine ⟨t, ht, ?_, hframe⟩
  rw [hrd, extend_zero_readBytes]
  exact Memory.readBytes_one ..

/-- Settles O18: zero extension keeps the number in the two bytes. -/
theorem lhuLoadsAnUnsignedHalfWord : Obligations.LhuLoadsAnUnsignedHalfWord := by
  unfold Obligations.LhuLoadsAnUnsignedHalfWord
  refine ⟨fun w h => decode_of_formatIRow rfl h rfl, ?_⟩
  rintro rd rs1 imm s a rfl
  refine ⟨isEffectiveAddress_effAddr .., fun ha hin => ?_, load_unaligned (w := .half),
    load_outOfRange (w := .half)⟩
  obtain ⟨t, ht, hrd, hframe⟩ := load_completes (w := .half) ha hin
  refine ⟨t, ht, ?_, hframe⟩
  rw [hrd, extend_zero_readBytes]
  exact Memory.readBytes_two ..

end Sys2Proof.Machine
end

section
/-! SUPPORT. Words of a format S row decode to its instruction; what a store does when its access is checked and
when it is not. -/

namespace Sys2Proof

/-- The bits that a row with funct3 asks for fix both codes. -/
theorem codes_of_and_funct3Mask {w p : Word} (h : w &&& 0x0000707F#32 = p) :
    funct3Of w = funct3Of p ∧ opcodeOf w = opcodeOf p :=
  codes_of_funct3Mask (by rw [← h, BitVec.and_assoc, BitVec.and_self])

/-- A word that meets the row with the codes of `p` decodes to the instruction that its format S fields encode
(spec R85, R93). -/
theorem decode_of_formatSRow {w p : Word} {i : Instr} (hi : i.wf = true) (h : w &&& 0x0000707F#32 = p)
    (he : encode i = encodeS (immSOf w) (field w 20 5) (field w 15 5) (funct3Of p) (opcodeOf p)) :
    decode w = .ok i := by
  obtain ⟨hf, ho⟩ := codes_of_and_funct3Mask h
  have hw : encode i = w := by
    rw [he, ← hf, ← ho]
    exact encodeS_fields w
  exact hw ▸ decode_encode hi

end Sys2Proof

namespace Sys2Proof.Machine

open Sys2Proof

section Store

variable {w : Width} {i : Instr} {rs1 rs2 : RegIdx} {imm : BitVec 12} {s : State}

/-- A store whose access is aligned and in range writes the low bytes of `x[rs2]`, lowest first, and nothing
else, and the run goes on (spec R51, R130). -/
theorem store_completes (ha : (s.effAddr rs1 imm).toNat % w.bytes = 0)
    (hin : inRange s.regions (s.effAddr rs1 imm) w = true) :
    ∃ t, store w i rs1 rs2 imm s = .next t ∧
      (∀ k, k < w.bytes →
        (byteIn t ((s.effAddr rs1 imm).toNat + k)).toNat = (s.readReg rs2).toNat / 256 ^ k % 256) ∧
      SameBytesOutside s t (s.effAddr rs1 imm).toNat w.bytes ∧ SameRegs s t ∧ Advances s t := by
  refine ⟨_, store_ok (checkAccess_ok.mpr ⟨ha, hin⟩), fun k hk => ?_, fun b hb => ?_, fun _ => rfl,
    advances_setMem ..⟩
  · rw [← byteOf_toNat]
    refine congrArg BitVec.toNat ((byteIn_writeBytes ..).trans ?_)
    rw [if_pos (by omega), Nat.add_sub_cancel_left]
  · exact (byteIn_writeBytes ..).trans (if_neg (by omega))

theorem store_unaligned (ha : (s.effAddr rs1 imm).toNat % w.bytes ≠ 0) :
    store w i rs1 rs2 imm s = .next (faulted s .unalignedAccess (some (encode i))) :=
  store_error (checkAccess_unaligned ha)

theorem store_outOfRange (ha : (s.effAddr rs1 imm).toNat % w.bytes = 0)
    (hout : inRange s.regions (s.effAddr rs1 imm) w = false) :
    store w i rs1 rs2 imm s = .next (faulted s .outOfRangeAccess (some (encode i))) :=
  store_error (checkAccess_outOfRange ha hout)

end Store

end Sys2Proof.Machine
end

section
/-! PROOFS. The statements of spec 42_stores.md. -/

namespace Sys2Proof.Machine

open Sys2Proof

/-- Settles O19: a byte access is always aligned, and the one byte written is digit 0 of `x[rs2]`. -/
theorem sbStoresTheLowByte : Obligations.SbStoresTheLowByte := by
  unfold Obligations.SbStoresTheLowByte
  refine ⟨fun w h => decode_of_formatSRow rfl h rfl, ?_⟩
  rintro rs1 rs2 imm s a rfl
  refine ⟨isEffectiveAddress_effAddr .., fun hin => ?_, store_outOfRange (Nat.mod_one _)⟩
  obtain ⟨t, ht, hdigit, hframe⟩ := store_completes (w := .byte) (rs2 := rs2) (Nat.mod_one _) hin
  exact ⟨t, ht, by simpa using hdigit 0 (by decide), hframe⟩

/-- Settles O20: the two bytes written are digits 0 and 1 of `x[rs2]`. -/
theorem shStoresTheLowHalfWord : Obligations.ShStoresTheLowHalfWord := by
  unfold Obligations.ShStoresTheLowHalfWord
  refine ⟨fun w h => decode_of_formatSRow rfl h rfl, ?_⟩
  rintro rs1 rs2 imm s a rfl
  refine ⟨isEffectiveAddress_effAddr .., fun ha hin => ?_, store_unaligned (w := .half),
    store_outOfRange (w := .half)⟩
  obtain ⟨t, ht, hdigit, hframe⟩ := store_completes (w := .half) (rs2 := rs2) ha hin
  exact ⟨t, ht, by simpa using hdigit 0 (by decide), hdigit 1 (by decide), hframe⟩

/-- Settles O21: the four bytes written are all the digits of `x[rs2]`. -/
theorem swStoresTheWord : Obligations.SwStoresTheWord := by
  unfold Obligations.SwStoresTheWord
  refine ⟨fun w h => decode_of_formatSRow rfl h rfl, ?_⟩
  rintro rs1 rs2 imm s a rfl
  refine ⟨isEffectiveAddress_effAddr .., fun ha hin => ?_, store_unaligned (w := .word),
    store_outOfRange (w := .word)⟩
  obtain ⟨t, ht, hdigit, hframe⟩ := store_completes (w := .word) (rs2 := rs2) ha hin
  exact ⟨t, ht, by simpa using hdigit 0 (by decide), hdigit 1 (by decide), hdigit 2 (by decide),
    hdigit 3 (by decide), hframe⟩

end Sys2Proof.Machine
end

section
/-! SUPPORT. Words of the SLLI row decode to SLLI whatever their ignored bits; what the instructions that write a
result do. -/

namespace Sys2Proof

/-- The SLLI row: `inst[31:25]` is ignored, so the word need not be an encoding (spec R86, R142). -/
theorem decode_of_slliRow {w : Word} (h : w &&& 0x0000707F#32 = 0x00001013#32) :
    decode w = .ok (.slli (rdOf w) (rs1Of w) (shamtOf w)) := by
  obtain ⟨hf, ho⟩ := codes_of_and_funct3Mask h
  rw [decode_opImm ho, decodeOpImm, hf]
  rfl

end Sys2Proof

namespace Sys2Proof.Machine

open Sys2Proof

/-- An instruction that writes a result writes `x[rd]` and nothing else, and the run goes on (spec R140, R150,
R160). -/
theorem writeResult_completes (rd : RegIdx) (v : Word) (s : State) :
    ∃ t, writeResult rd v s = .next t ∧ t.readReg rd = v ∧
      SameRegsExcept s t rd ∧ SameBytes s t ∧ Advances s t :=
  ⟨_, complete_eq .., State.readReg_writeReg_self .., sameRegsExcept_writeReg _ _ _ _, fun _ => rfl,
    advances_writeReg ..⟩

/-- A left shift multiplies by a power of two and loses the bits above the word (spec R142). -/
theorem shiftLeft_toNat (v : Word) (n : Nat) : (v <<< n).toNat = v.toNat * 2 ^ n % addressSpaceSize := by
  rw [BitVec.toNat_shiftLeft, Nat.shiftLeft_eq]

end Sys2Proof.Machine
end

section
/-! PROOFS. The statements of spec 43_alu_immediate.md. -/

namespace Sys2Proof.Machine

open Sys2Proof

/-- Settles O22: the result is a word plus a sign-extended operand. -/
theorem addiAddsTheSignedImmediate : Obligations.AddiAddsTheSignedImmediate := by
  unfold Obligations.AddiAddsTheSignedImmediate
  refine ⟨fun w h => decode_of_formatIRow rfl h rfl, fun rd rs1 imm s => ?_⟩
  obtain ⟨t, ht, hrd, hframe⟩ := writeResult_completes rd (s.readReg rs1 + sext imm) s
  exact ⟨t, ht, hrd ▸ add_sext_toNat _ imm (by decide), hframe⟩

/-- Settles O23: the shift amount is the 5-bit operand, and the decoder does not look at `inst[31:25]`. -/
theorem slliShiftsLeftByFiveBits : Obligations.SlliShiftsLeftByFiveBits := by
  unfold Obligations.SlliShiftsLeftByFiveBits
  refine ⟨fun w h => decode_of_slliRow h, fun rd rs1 shamt s => ?_⟩
  obtain ⟨t, ht, hrd, hframe⟩ := writeResult_completes rd (s.readReg rs1 <<< shamt.toNat) s
  exact ⟨t, ht, hrd ▸ shiftLeft_toNat .., hframe⟩

/-- Settles O24: the result is a word minus a sign-extended operand. -/
theorem subiSubtractsTheSignedImmediate : Obligations.SubiSubtractsTheSignedImmediate := by
  unfold Obligations.SubiSubtractsTheSignedImmediate
  refine ⟨fun w h => decode_of_formatIRow rfl h rfl, fun rd rs1 imm s => ?_⟩
  obtain ⟨t, ht, hrd, hframe⟩ := writeResult_completes rd (s.readReg rs1 - sext imm) s
  exact ⟨t, ht, hrd ▸ sub_sext_toNat _ imm (by decide), hframe⟩

end Sys2Proof.Machine
end

section
/-! SUPPORT. Words of the ALU-register rows decode to their instruction; products and differences of two words as
numbers. -/

namespace Sys2Proof

/-- The bits that a row with funct7 asks for fix the three codes. -/
theorem codes_of_and_funct7Mask {w p : Word} (h : w &&& 0xFE00707F#32 = p) :
    funct7Of w = funct7Of p ∧ funct3Of w = funct3Of p ∧ opcodeOf w = opcodeOf p :=
  codes_of_funct7Mask (by rw [← h, BitVec.and_assoc, BitVec.and_self])

/-- A word that meets the row with the codes of `p` decodes to the instruction that its format R fields encode
(spec R85, R93). -/
theorem decode_of_formatRRow {w p : Word} {i : Instr} (hi : i.wf = true) (h : w &&& 0xFE00707F#32 = p)
    (he : encode i =
      encodeR (funct7Of p) (field w 20 5) (field w 15 5) (funct3Of p) (field w 7 5) (opcodeOf p)) :
    decode w = .ok i := by
  obtain ⟨hg, hf, ho⟩ := codes_of_and_funct7Mask h
  have hw : encode i = w := by
    rw [he, ← hg, ← hf, ← ho]
    exact encodeR_fields w
  exact hw ▸ decode_encode hi

/-- The SUB row: funct7 is ignored, so the word need not be an encoding (spec R86, R153). -/
theorem decode_of_subRow {w : Word} (h : w &&& 0x0000707F#32 = 0x00002033#32) :
    decode w = .ok (.sub (rdOf w) (rs1Of w) (rs2Of w)) := by
  obtain ⟨hf, ho⟩ := codes_of_and_funct3Mask h
  rw [decode_op ho, decodeOp, hf]
  rfl

end Sys2Proof

namespace Sys2Proof.Machine

open Sys2Proof

/-- The signed and the unsigned reading of a word differ by a multiple of 2^32. -/
theorem toNat_eq_toInt_emod (v : Word) : (v.toNat : Int) = v.toInt % addressSpaceSize := by
  rw [BitVec.toInt_eq_toNat_bmod, Int.bmod_emod]
  exact (Int.emod_eq_of_lt v.toNat.cast_nonneg (Int.ofNat_lt.mpr v.isLt)).symm

/-- The low half of a product is that of the signed product (spec R152). -/
theorem mul_toNat_eq_toInt_mul (v w : Word) :
    ((v * w).toNat : Int) = v.toInt * w.toInt % addressSpaceSize := by
  rw [toNat_eq_toInt_emod, BitVec.toInt_mul, Int.bmod_emod]

/-- A difference wraps at 2^32 (spec R153). -/
theorem sub_toNat (v w : Word) : ((v - w).toNat : Int) = ((v.toNat : Int) - w.toNat) % addressSpaceSize := by
  rw [toNat_eq_toInt_emod (v - w), BitVec.toInt_sub, Int.bmod_emod, Int.sub_emod, ← toNat_eq_toInt_emod v,
    ← toNat_eq_toInt_emod w]

end Sys2Proof.Machine
end

section
/-! PROOFS. The statements of spec 44_alu_register.md. -/

namespace Sys2Proof.Machine

open Sys2Proof

/-- Settles O25: the sum of two words is the sum of their numbers modulo 2^32. -/
theorem addAddsTwoRegisters : Obligations.AddAddsTwoRegisters := by
  unfold Obligations.AddAddsTwoRegisters
  refine ⟨fun w h => decode_of_formatRRow rfl h rfl, fun rd rs1 rs2 s => ?_⟩
  obtain ⟨t, ht, hrd, hframe⟩ := writeResult_completes rd (s.readReg rs1 + s.readReg rs2) s
  exact ⟨t, ht, hrd ▸ BitVec.toNat_add .., hframe⟩

/-- Settles O26: modulo 2^32 the signed and the unsigned reading of an operand are the same number. -/
theorem mulGivesTheLowHalfOfTheProduct : Obligations.MulGivesTheLowHalfOfTheProduct := by
  unfold Obligations.MulGivesTheLowHalfOfTheProduct
  refine ⟨fun w h => decode_of_formatRRow rfl h rfl, fun rd rs1 rs2 s => ?_⟩
  obtain ⟨t, ht, hrd, hframe⟩ := writeResult_completes rd (s.readReg rs1 * s.readReg rs2) s
  exact ⟨t, ht, hrd ▸ BitVec.toNat_mul .., hrd ▸ mul_toNat_eq_toInt_mul .., hframe⟩

/-- Settles O27: the result is a word minus a word, and the decoder does not look at funct7. -/
theorem subSubtractsTwoRegisters : Obligations.SubSubtractsTwoRegisters := by
  unfold Obligations.SubSubtractsTwoRegisters
  refine ⟨fun w h => decode_of_subRow h, fun rd rs1 rs2 s => ?_⟩
  obtain ⟨t, ht, hrd, hframe⟩ := writeResult_completes rd (s.readReg rs1 - s.readReg rs2) s
  exact ⟨t, ht, hrd ▸ sub_toNat .., hframe⟩

end Sys2Proof.Machine
end

section
/-! SUPPORT. Words of the LUI row decode to LUI; LUI and then ADDI on one register, and the two parts in which they
build a constant. -/

namespace Sys2Proof

/-- The LUI row asks for the opcode alone (spec R85, R160). -/
theorem decode_of_luiRow {w : Word} (h : w &&& 0x0000007F#32 = 0x00000037#32) :
    decode w = .ok (.lui (rdOf w) (immUOf w)) :=
  decode_lui (opcode_of_opcodeMask (v := 0x00000037#32) h.symm)

end Sys2Proof

namespace Sys2Proof.Machine

open Sys2Proof

/-- The upper part and the signed lower part, as one number modulo 2^32 (spec R161). -/
theorem immUpper_add_sext_toNat (hi : BitVec 20) (lo : BitVec 12) :
    ((immUpper hi + sext lo).toNat : Int) = (hi.toNat * 4096 + lo.toInt) % addressSpaceSize := by
  rw [add_sext_toNat _ lo (by decide), immUpper_toNat, Nat.cast_mul, Nat.cast_ofNat]

/-- LUI and then ADDI on one register leave the sum of what they carry (spec R161). -/
theorem lui_then_addi (rd : RegIdx) (hi : BitVec 20) (lo : BitVec 12) (s : State) :
    ∃ t u, exec (.lui rd hi) s = .next t ∧ exec (.addi rd rd lo) t = .next u ∧
      u.readReg rd = immUpper hi + sext lo := by
  obtain ⟨t, ht, hupper, -⟩ := writeResult_completes rd (immUpper hi) s
  obtain ⟨u, hu, hsum, -⟩ := writeResult_completes rd (t.readReg rd + sext lo) t
  exact ⟨t, u, ht, hu, hsum.trans (by rw [hupper])⟩

/-- The upper part that LUI is given for a constant: its upper 20 bits, and one more where ADDI will take 2^12 back
because its operand is negative (spec R161). -/
def luiPart (c : Word) : BitVec 20 :=
  if c.getLsbD 11 then c.extractLsb' 12 20 + 1#20 else c.extractLsb' 12 20

/-- The low 12 bits are negative exactly when bit 11 is set. -/
theorem lowPart_toInt (c : Word) :
    (c.extractLsb' 0 12).toInt = if c.getLsbD 11 then (c.toNat % 4096 : Int) - 4096 else c.toNat % 4096 := by
  have hsign : (c.extractLsb' 0 12).msb = c.getLsbD 11 := BitVec.msb_extractLsb' ..
  rw [BitVec.toInt_eq_msb_cond, hsign, BitVec.extractLsb'_toNat]
  rfl

/-- The carry of bit 11 wraps at the 20 bits of the upper part. -/
theorem luiPart_toNat (c : Word) :
    (luiPart c).toNat = if c.getLsbD 11 then (c.toNat / 4096 + 1) % 1048576 else c.toNat / 4096 := by
  have hupper : (c.extractLsb' 12 20).toNat = c.toNat / 4096 := by
    rw [BitVec.extractLsb'_toNat, Nat.shiftRight_eq_div_pow]
    exact Nat.mod_eq_of_lt (Nat.div_lt_of_lt_mul c.isLt)
  rw [luiPart, apply_ite BitVec.toNat, BitVec.toNat_add, hupper]
  rfl

/-- The carry into the upper part makes up for the sign of the lower one, so every constant is built (spec R161). -/
theorem immUpper_luiPart_add_sext (c : Word) : immUpper (luiPart c) + sext (c.extractLsb' 0 12) = c := by
  refine BitVec.eq_of_toNat_eq (Int.ofNat_inj.mp ?_)
  have hc : c.toNat < 4294967296 := c.isLt
  rw [immUpper_add_sext_toNat, luiPart_toNat, lowPart_toInt, Nat.cast_ofNat]
  split
  · omega
  · omega

end Sys2Proof.Machine
end

section
/-! PROOFS. The statements of spec 45_lui.md. -/

namespace Sys2Proof.Machine

open Sys2Proof

/-- Settles O28: the result is the operand followed by twelve zero bits, whatever the state. -/
theorem luiSetsTheUpperTwentyBits : Obligations.LuiSetsTheUpperTwentyBits := by
  unfold Obligations.LuiSetsTheUpperTwentyBits
  refine ⟨fun w h => decode_of_luiRow h, fun rd imm s => ?_⟩
  obtain ⟨t, ht, hrd, hframe⟩ := writeResult_completes rd (immUpper imm) s
  exact ⟨t, ht, hrd ▸ immUpper_toNat imm, hframe⟩

/-- Settles O38: the register holds the sum of the two parts, and the parts of a constant add up to it. -/
theorem luiThenAddiBuildsAnyConstant : Obligations.LuiThenAddiBuildsAnyConstant := by
  unfold Obligations.LuiThenAddiBuildsAnyConstant
  refine fun rd s => ⟨fun hi lo => ?_, fun c => ?_⟩
  · obtain ⟨t, u, ht, hu, hsum⟩ := lui_then_addi rd hi lo s
    exact ⟨t, u, ht, hu, hsum ▸ immUpper_add_sext_toNat hi lo⟩
  · obtain ⟨t, u, ht, hu, hsum⟩ := lui_then_addi rd (luiPart c) (c.extractLsb' 0 12) s
    exact ⟨t, u, ht, hu, hsum.trans (immUpper_luiPart_add_sext c)⟩

end Sys2Proof.Machine
end

section
/-! SUPPORT. Words of the JAL row decode to JAL; targets of even offsets and the next pc of an instruction; what JAL
does. -/

namespace Sys2Proof

/-- The JAL row asks for the opcode alone: `inst[11:7]` is ignored (spec R86, R166). -/
theorem decode_of_jalRow {w : Word} (h : w &&& 0x0000007F#32 = 0x0000006F#32) :
    decode w = .ok (.jal (immJOf w)) :=
  decode_jal (opcode_of_opcodeMask (v := 0x0000006F#32) h.symm)

end Sys2Proof

namespace Sys2Proof.Machine

open Sys2Proof

/-! ## Even addresses -/

/-- The width of the sum is even, so its wrap keeps bit 0. -/
theorem add_toNat_even {v w : Word} (hv : v.toNat % 2 = 0) (hw : w.toNat % 2 = 0) : (v + w).toNat % 2 = 0 := by
  rw [BitVec.toNat_add]
  omega

/-- Sign extension keeps bit 0. -/
theorem sext_toNat_even {n : Nat} {off : BitVec n} (hn : 0 < n) (h0 : off.getLsbD 0 = false) :
    (sext off).toNat % 2 = 0 := by
  have hbit : (sext off).getLsbD 0 = false := by
    rw [sext, BitVec.getLsbD_signExtend, if_pos hn, h0, Bool.and_false]
  rw [BitVec.getLsbD, Nat.testBit_zero, decide_eq_false_iff_not] at hbit
  omega

section Even

variable {s t : State} (hp : s.PcEven)

include hp

theorem State.PcEven.of_pc_eq (h : t.pc = s.pc) : t.PcEven := by
  rw [State.PcEven, h]
  exact hp

theorem State.PcEven.of_nextPc (h : t.pc = s.nextPc) : t.PcEven := by
  rw [State.PcEven, h]
  exact add_toNat_even hp rfl

/-- The target of an even offset is even (spec R165). -/
theorem State.PcEven.of_target {n : Nat} {off : BitVec n} (hn : 0 < n) (h0 : off.getLsbD 0 = false)
    (h : t.pc = s.target off) : t.PcEven := by
  rw [State.PcEven, h]
  exact add_toNat_even hp (sext_toNat_even hn h0)

end Even

/-! ## The next pc of an instruction -/

section NextPc

variable {s t : State}

/-- The next address of a branch (spec R170). -/
theorem branch_pc {c : Cond} {rs1 rs2 : RegIdx} {imm : BitVec 13} (h : branch c rs1 rs2 imm s = .next t) :
    t.pc = if c.holds (s.readReg rs1) (s.readReg rs2) then s.target imm else s.nextPc := by
  cases h
  rfl

theorem branch_pcEven {c : Cond} {rs1 rs2 : RegIdx} {imm : BitVec 13} (hp : s.PcEven)
    (h0 : imm.getLsbD 0 = false) (h : branch c rs1 rs2 imm s = .next t) : t.PcEven := by
  have hpc := branch_pc h
  split at hpc
  · exact hp.of_target (by decide) h0 hpc
  · exact hp.of_nextPc hpc

/-- A fault of an instruction leaves pc alone (spec R186). -/
theorem ExecShape.pc_eq_of_faulted {i : Instr} (h : ExecShape i s t) (hs : s.status = .running)
    (hf : t.status = .faulted) : t.pc = s.pc := by
  cases h with
  | fault a n k hd hc => rfl
  | register rd v next hr hd => exact absurd hf (State.commit_not_faulted (s := s.writeReg rd v) hs next)
  | memory a n r hst hd hr hc => exact absurd hf (State.commit_not_faulted (s := s.setMem _) hs _)
  | branch next hr hd => exact absurd hf (State.commit_not_faulted hs next)

/-- An instruction of an even pc that completes leads to an even pc: bit 0 of the offset of a well-formed jump or
branch is 0 (spec R79, R82, R165). -/
theorem exec_pcEven_of_not_faulted {i : Instr} (hi : i.wf = true) (hp : s.PcEven) (h : exec i s = .next t)
    (hnf : t.status ≠ .faulted) : t.PcEven := by
  cases i
  case lb | lh | lw | lbu | lhu => exact hp.of_nextPc (load_pc h hnf)
  case sb | sh | sw => exact hp.of_nextPc (store_pc h hnf)
  case addi | slli | subi | add | mul | sub | lui => exact hp.of_nextPc (writeResult_pc h)
  case jal imm => exact hp.of_target (by decide) ((Bool.not_eq_true' _).mp hi) (execJal_pc h)
  case beq | bne | blt | bge | bltu | bgeu => exact branch_pcEven hp ((Bool.not_eq_true' _).mp hi) h

theorem exec_pcEven {i : Instr} (hi : i.wf = true) (hs : s.status = .running) (hp : s.PcEven)
    (h : exec i s = .next t) : t.PcEven := by
  by_cases hf : t.status = .faulted
  · exact hp.of_pc_eq ((exec_cases h).pc_eq_of_faulted hs hf)
  · exact exec_pcEven_of_not_faulted hi hp h hf

end NextPc

/-! ## What JAL does -/

/-- `pc + 4` wraps at 2^32 (spec R25). -/
theorem State.nextPc_toNat (s : State) : s.nextPc.toNat = (s.pc.toNat + 4) % addressSpaceSize :=
  BitVec.toNat_add ..

/-- A fetch from an address that is no multiple of 4 faults (spec R50, R102). -/
theorem fetch_unaligned {s : State} (h : s.pc.toNat % 4 ≠ 0) : fetch s = .error .unalignedAccess :=
  memRead_error.mpr (checkAccess_unaligned h)

/-- JAL links to `x[1]`, writes nothing else, and goes to its target (spec R166). -/
theorem execJal_completes (imm : BitVec 21) (s : State) :
    ∃ t, execJal imm s = .next t ∧ t.readReg 1#5 = s.nextPc ∧
      SameRegsExcept s t 1#5 ∧ SameBytes s t ∧ GoesTo s t imm.toInt :=
  ⟨_, complete_eq .., State.readReg_writeReg_self .., sameRegsExcept_writeReg _ _ _ _, fun _ => rfl,
    add_sext_toNat _ imm (by decide), rfl, rfl, rfl, rfl⟩

end Sys2Proof.Machine
end

section
/-! PROOFS. The statements of spec 46_jal.md. -/

namespace Sys2Proof.Machine

open Sys2Proof

/-- Settles O57: a stopped core and a fault leave pc alone, and what a word decodes to has an even offset. -/
theorem stepKeepsThePcEven : Obligations.StepKeepsThePcEven := by
  unfold Obligations.StepKeepsThePcEven
  intro s t hp h
  rcases step_cases h with ⟨-, rfl⟩ | ⟨hs, -, ⟨k, -, rfl⟩ | ⟨w, r, -, -, rfl⟩ | ⟨w, i, -, hd, hx⟩⟩
  · exact hp
  · exact hp.of_pc_eq rfl
  · exact hp.of_pc_eq rfl
  · exact exec_pcEven (wf_of_decode hd) hs hp hx

/-- Settles O29: the link register is `x[1]`, and the target is looked at only by the next fetch. -/
theorem jalLinksToRegisterOne : Obligations.JalLinksToRegisterOne := by
  unfold Obligations.JalLinksToRegisterOne
  refine ⟨fun w h => decode_of_jalRow h, fun imm s => ?_⟩
  obtain ⟨t, ht, hlink, hregs, hbytes, hgoes⟩ := execJal_completes imm s
  exact ⟨t, ht, hlink ▸ s.nextPc_toNat, hregs, hbytes, hgoes, fetch_unaligned⟩

end Sys2Proof.Machine
end

section
/-! SUPPORT. Words of a format B row decode to their instruction; when the six comparisons hold; what a branch does. -/

namespace Sys2Proof

/-- A word that meets the row with the codes of `p` decodes to the instruction that its format B fields encode: the
offset is put together with bit 0 clear, so it is one that the instruction can carry (spec R79, R85, R93). -/
theorem decode_of_formatBRow {w p : Word} {i : Instr} (hi : i.wf = !(immBOf w).getLsbD 0)
    (h : w &&& 0x0000707F#32 = p)
    (he : encode i = encodeB (immBOf w) (field w 20 5) (field w 15 5) (funct3Of p) (opcodeOf p)) :
    decode w = .ok i := by
  obtain ⟨hf, ho⟩ := codes_of_and_funct3Mask h
  have hw : encode i = w := by
    rw [he, ← hf, ← ho]
    exact encodeB_fields w
  have hwf : i.wf = true := by rw [hi, immBOf_getLsbD_zero]; rfl
  exact hw ▸ decode_encode hwf

end Sys2Proof

namespace Sys2Proof.Machine

open Sys2Proof

/-! ## The comparisons (spec R170) -/

section Cond

variable {a b : Word}

theorem Cond.eq_holds : Cond.eq.holds a b = true ↔ a = b := decide_eq_true_iff

theorem Cond.ne_holds : Cond.ne.holds a b = true ↔ a ≠ b := decide_eq_true_iff

theorem Cond.lt_holds : Cond.lt.holds a b = true ↔ a.toInt < b.toInt := decide_eq_true_iff

/-- The complement of the signed less-than (spec R174). -/
theorem Cond.ge_holds : Cond.ge.holds a b = true ↔ ¬ a.toInt < b.toInt := decide_eq_true_iff.trans not_lt.symm

theorem Cond.ltu_holds : Cond.ltu.holds a b = true ↔ a.toNat < b.toNat := decide_eq_true_iff

/-- The complement of the unsigned less-than (spec R176). -/
theorem Cond.geu_holds : Cond.geu.holds a b = true ↔ ¬ a.toNat < b.toNat := decide_eq_true_iff.trans not_lt.symm

end Cond

/-! ## What a branch does -/

/-- A commit and nothing else goes where the committed address is, and halts when that is its own (spec R106,
R107). -/
theorem goesTo_commit {s : State} {next : Word} {d : Int}
    (h : (next.toNat : Int) = (s.pc.toNat + d) % addressSpaceSize) : GoesTo s (s.commit next) d :=
  ⟨h, rfl, rfl, rfl, rfl⟩

/-- A branch writes nothing and goes to its target when its comparison holds, here as the proposition `p`, and to
`pc + 4` otherwise; the address is looked at only by the next fetch (spec R165, R170). -/
theorem branch_completes {c : Cond} {rs1 rs2 : RegIdx} {s : State} {p : Prop} [Decidable p]
    (hc : c.holds (s.readReg rs1) (s.readReg rs2) = true ↔ p) (imm : BitVec 13) :
    ∃ t, branch c rs1 rs2 imm s = .next t ∧ SameRegs s t ∧ SameBytes s t ∧
      GoesTo s t (if p then imm.toInt else 4) ∧
      (t.pc.toNat % 4 ≠ 0 → fetch t = .error .unalignedAccess) := by
  refine ⟨_, complete_eq .., fun _ => rfl, fun _ => rfl, goesTo_commit ?_, fetch_unaligned⟩
  by_cases hp : p
  · rw [if_pos (hc.mpr hp), if_pos hp]
    exact add_sext_toNat s.pc imm (by decide)
  · rw [if_neg (mt hc.mp hp), if_neg hp]
    exact congrArg Nat.cast s.nextPc_toNat

end Sys2Proof.Machine
end

section
/-! PROOFS. The statements of spec 47_branches.md. -/

namespace Sys2Proof.Machine

open Sys2Proof

/-- Settles O30: words are equal exactly when all their bits are. -/
theorem beqBranchesWhenEqual : Obligations.BeqBranchesWhenEqual := by
  unfold Obligations.BeqBranchesWhenEqual
  exact ⟨fun w h => decode_of_formatBRow rfl h rfl, fun _ _ imm _ => branch_completes Cond.eq_holds imm⟩

/-- Settles O31: the comparison is the inequality of the two words. -/
theorem bneBranchesWhenNotEqual : Obligations.BneBranchesWhenNotEqual := by
  unfold Obligations.BneBranchesWhenNotEqual
  exact ⟨fun w h => decode_of_formatBRow rfl h rfl, fun _ _ imm _ => branch_completes Cond.ne_holds imm⟩

/-- Settles O32: the comparison reads both words as signed numbers. -/
theorem bltBranchesWhenSignedLess : Obligations.BltBranchesWhenSignedLess := by
  unfold Obligations.BltBranchesWhenSignedLess
  exact ⟨fun w h => decode_of_formatBRow rfl h rfl, fun _ _ imm _ => branch_completes Cond.lt_holds imm⟩

/-- Settles O33: the order of the signed readings is total, so the comparison is the complement of BLT's. -/
theorem bgeBranchesWhenSignedNotLess : Obligations.BgeBranchesWhenSignedNotLess := by
  unfold Obligations.BgeBranchesWhenSignedNotLess
  exact ⟨fun w h => decode_of_formatBRow rfl h rfl, fun _ _ imm _ => branch_completes Cond.ge_holds imm⟩

/-- Settles O34: the comparison reads both words as unsigned numbers. -/
theorem bltuBranchesWhenUnsignedLess : Obligations.BltuBranchesWhenUnsignedLess := by
  unfold Obligations.BltuBranchesWhenUnsignedLess
  exact ⟨fun w h => decode_of_formatBRow rfl h rfl, fun _ _ imm _ => branch_completes Cond.ltu_holds imm⟩

/-- Settles O35: the order of the unsigned readings is total, so the comparison is the complement of BLTU's. -/
theorem bgeuBranchesWhenUnsignedNotLess : Obligations.BgeuBranchesWhenUnsignedNotLess := by
  unfold Obligations.BgeuBranchesWhenUnsignedNotLess
  exact ⟨fun w h => decode_of_formatBRow rfl h rfl, fun _ _ imm _ => branch_completes Cond.geu_holds imm⟩

end Sys2Proof.Machine
end

section
/-! SUPPORT. When an instruction and a step fault and when they complete; that a fault record explains itself; the
fetch that is out of range, and the first step after reset when its fetch faults. -/

namespace Sys2Proof.Machine

open Sys2Proof

/-! ## What explains a fault record -/

section Congruence

variable {s t : State} (h : SameToPrograms s t)

include h

theorem SameToPrograms.fetch_eq : fetch t = fetch s := by
  obtain ⟨-, hpc, hmem, hregions⟩ := h
  exact fetch_congr hpc hmem hregions

theorem SameToPrograms.dataAccess_eq (i : Instr) : dataAccess t i = dataAccess s i := by
  cases i
  case lb | lbu | sb | lh | lhu | sh | lw | sw => simp only [dataAccess, h.effAddr]
  case addi | slli | subi | add | mul | sub | lui | jal => rfl
  case beq | bne | blt | bge | bltu | bgeu => rfl

/-- What explains a record is registers, pc, memory and region table, which a fault leaves alone (spec R186). -/
theorem SameToPrograms.recordExplained {f : FaultRecord} (hf : RecordExplained s f) : RecordExplained t f := by
  have ⟨_, hpc, _, hregions⟩ := h
  simp only [RecordExplained, hpc, hregions, h.fetch_eq, h.dataAccess_eq]
  exact hf

end Congruence

theorem sameToPrograms_faulted (s : State) (k : Fault) (inst : Option Word) :
    SameToPrograms s (faulted s k inst) :=
  ⟨rfl, rfl, rfl, rfl⟩

/-! ## When an instruction faults -/

section Instruction

variable {i : Instr} {s t : State}

/-- An instruction of a running core faults exactly on its data access, and else keeps the record (spec R181, R182,
R186). -/
theorem ExecShape.fault_or_completes (h : ExecShape i s t) (hs : s.status = .running) :
    (∃ a n k, dataAccess s i = some (a, n) ∧ checkAccess s.regions a n = .error k ∧
      t = faulted s k (some (encode i))) ∨
    ((∀ a n, dataAccess s i = some (a, n) → checkAccess s.regions a n = .ok ()) ∧
      t.status ≠ .faulted ∧ t.fault = s.fault) := by
  cases h with
  | fault a n k hd hc => exact .inl ⟨a, n, k, hd, hc, rfl⟩
  | register rd v next hr hd =>
    exact .inr ⟨hd, State.commit_not_faulted (s := s.writeReg rd v) hs next, rfl⟩
  | memory a n r hst hd hr hc =>
    refine .inr ⟨fun a' n' h' => ?_, State.commit_not_faulted (s := s.setMem _) hs _, rfl⟩
    cases hd.symm.trans h'
    exact hc
  | branch next hr hd =>
    refine .inr ⟨fun a n h' => ?_, State.commit_not_faulted hs next, rfl⟩
    cases hd.symm.trans h'

/-- An instruction whose data access is refused faults with the kind of the refusal. -/
theorem exec_of_access_error (hs : s.status = .running) {a : Word} {n : Width} {k : Fault}
    (hd : dataAccess s i = some (a, n)) (hc : checkAccess s.regions a n = .error k) :
    exec i s = .next (faulted s k (some (encode i))) := by
  obtain ⟨t, ht, hshape⟩ := exec_shape i s
  rcases hshape.fault_or_completes hs with ⟨a', n', k', hd', hc', rfl⟩ | ⟨hok, -⟩
  · cases hd.symm.trans hd'
    cases hc.symm.trans hc'
    exact ht
  · cases hc.symm.trans (hok a n hd)

/-- An instruction whose data access, if any, is allowed does not fault. -/
theorem exec_of_access_ok (hs : s.status = .running)
    (hc : ∀ a n, dataAccess s i = some (a, n) → checkAccess s.regions a n = .ok ()) :
    ∃ t, exec i s = .next t ∧ t.status ≠ .faulted := by
  obtain ⟨t, ht, hshape⟩ := exec_shape i s
  rcases hshape.fault_or_completes hs with ⟨a, n, k, hd, hk, -⟩ | ⟨-, hnf, -⟩
  · cases hk.symm.trans (hc a n hd)
  · exact ⟨t, ht, hnf⟩

/-- The record of a refused data access holds the fetched word (spec R185). -/
theorem fetchExecute_of_access_error (hs : s.status = .running) {w : Word} (hf : fetch s = .ok w)
    (hd : decode w = .ok i) {a : Word} {n : Width} {k : Fault} (haccess : dataAccess s i = some (a, n))
    (hc : checkAccess s.regions a n = .error k) : fetchExecute s = .next (faulted s k (some w)) := by
  rw [fetchExecute_exec hf hd, ← encode_of_decode_access hd haccess]
  exact exec_of_access_error hs haccess hc

end Instruction

/-! ## When a step faults -/

/-- A step of a running core is a fault whose record the old state explains, or completes and keeps the record
(spec R181 to R186). -/
theorem step_faults_or_completes {s t : State} (hs : s.status = .running) (h : step s = .next t) :
    (∃ k inst, t = faulted s k inst ∧ RecordExplained s ⟨k, s.pc, inst⟩) ∨
    (t.status ≠ .faulted ∧ t.fault = s.fault) := by
  rcases step_cases h with ⟨hn, -⟩ | ⟨-, -, ⟨k, hf, rfl⟩ | ⟨w, r, hf, hd, rfl⟩ | ⟨w, i, hf, hd, hx⟩⟩
  · exact absurd hs hn
  · exact .inl ⟨k, none, rfl, rfl, hf⟩
  · exact .inl ⟨_, some w, rfl, rfl, hf, .inl ⟨r, hd, rfl⟩⟩
  · rcases (exec_cases hx).fault_or_completes hs with ⟨a, n, k, haccess, hk, rfl⟩ | ⟨-, hcompletes⟩
    · rw [encode_of_decode_access hd haccess]
      exact .inl ⟨k, some w, rfl, rfl, hf, .inr ⟨i, a, n, hd, haccess, hk⟩⟩
    · exact .inr hcompletes

/-- Fetch, dispatch and execute answer a next state: a fault is one, and every instruction has one. -/
theorem fetchExecute_next (s : State) : ∃ t, fetchExecute s = .next t := by
  cases hf : fetch s with
  | error k => exact ⟨_, fetchExecute_fetchFault hf⟩
  | ok w =>
    cases hd : decode w with
    | error r => exact ⟨_, fetchExecute_reject hf hd⟩
    | ok i =>
      obtain ⟨t, ht, -⟩ := exec_shape i s
      exact ⟨t, (fetchExecute_exec hf hd).trans ht⟩

/-! ## The fetch -/

/-- A fetch of a word that is not inside one region faults (spec R49, R50, R102). -/
theorem fetch_outOfRange {s : State} (ha : s.pc.toNat % 4 = 0) (hin : inRange s.regions s.pc .word = false) :
    fetch s = .error .outOfRangeAccess :=
  memRead_error.mpr (checkAccess_outOfRange ha hin)

/-- An access that is inside no segment of the image is out of range after reset (spec R41, R49). -/
theorem inRange_map_segmentRegion_eq_false {gs : List Segment} {a : Word} {w : Width}
    (h : ¬ ∃ g ∈ gs, g.base.toNat ≤ a.toNat ∧ a.toNat + w.bytes ≤ g.base.toNat + g.bytes.length) :
    inRange (gs.map segmentRegion) a w = false := by
  refine Bool.eq_false_iff.mpr fun hin => h ?_
  obtain ⟨r, hr, hbase, hstop⟩ := inRange_covers hin
  obtain ⟨g, hg, rfl⟩ := List.mem_map.mp hr
  exact ⟨g, hg, hbase, hstop⟩

/-- A first fetch that faults is reported by the first step, with ENTRY_POINT and no word (spec R185, R212). -/
theorem step_resetWith_of_fetch_error {p : Params} (hw : regionsWf (p.regions.map segmentRegion)) {k : Fault}
    (hf : fetch (resetWith p) = .error k) :
    ∃ t, step (resetWith p) = .next t ∧ t.status = .faulted ∧ t.instret = 0 ∧
      t.fault = some ⟨k, p.entryPoint, none⟩ :=
  ⟨_, (step_running rfl hw).trans (fetchExecute_fetchFault hf), rfl, rfl, rfl⟩

end Sys2Proof.Machine
end

section
/-! PROOFS. The statements of spec 60_exceptions.md and 70_reset_and_hazards.md. -/

namespace Sys2Proof.Machine

open Sys2Proof

/-- Settles O58: a running core has no record before its step, so a record after it is one that the step made from
the old state, and a fault changes nothing that explains it. -/
theorem faultRecordsAreExplained : Obligations.FaultRecordsAreExplained := by
  unfold Obligations.FaultRecordsAreExplained
  intro s t hold h f hf
  by_cases hs : s.status = .running
  · rcases step_faults_or_completes hs h with ⟨k, inst, rfl, hexplained⟩ | ⟨-, hkept⟩
    · cases hf
      exact ⟨rfl, (sameToPrograms_faulted s k inst).recordExplained hexplained⟩
    · obtain ⟨hfaulted, -⟩ := hold f (hkept.symm.trans hf)
      cases hs.symm.trans hfaulted
  · cases (step_stopped hs).symm.trans h
    exact hold f hf

/-- Settles O42: a step that does not make a record does not end Faulted, and a Faulted core stays as it is. -/
theorem faultsArePrecise : Obligations.FaultsArePrecise := by
  unfold Obligations.FaultsArePrecise
  intro s t hs h hfaulted
  rcases step_faults_or_completes hs h with ⟨k, inst, hmade, -⟩ | ⟨hnf, -⟩
  · refine ⟨⟨k, inst, hmade⟩, fun u hu => ?_⟩
    cases (step_stopped (by simp [hfaulted])).symm.trans hu
    rfl
  · exact absurd hfaulted hnf

/-- Settles O43: the fetch checks alignment and then range, the decoder rejects next, and the data access is checked
last, again alignment and then range. -/
theorem faultsAreReportedInTheStatedOrder : Obligations.FaultsAreReportedInTheStatedOrder := by
  unfold Obligations.FaultsAreReportedInTheStatedOrder
  intro s hs hr
  rw [step_running hs hr]
  split_ifs with ha hin
  · exact fetchExecute_fetchFault (fetch_unaligned ha)
  · exact fetchExecute_fetchFault (fetch_outOfRange (not_not.mp ha) hin)
  have hf := fetch_eq_wordOfBytes (checkAccess_ok.mpr ⟨not_not.mp ha, eq_true_of_ne_false hin⟩)
  refine ⟨_, hf, ?_⟩
  split
  next hd => exact fetchExecute_reject hf hd
  next hd => exact fetchExecute_reject hf hd
  next i hd =>
    split
    next a n haccess =>
      split_ifs with hda hdin
      · exact fetchExecute_of_access_error hs hf hd haccess (checkAccess_unaligned hda)
      · exact fetchExecute_of_access_error hs hf hd haccess (checkAccess_outOfRange (not_not.mp hda) hdin)
      · rw [fetchExecute_exec hf hd]
        refine exec_of_access_ok hs fun a' n' haccess' => ?_
        cases haccess.symm.trans haccess'
        exact checkAccess_ok.mpr ⟨not_not.mp hda, eq_true_of_ne_false hdin⟩
    next hnone =>
      rw [fetchExecute_exec hf hd]
      exact exec_of_access_ok hs fun a n haccess => nomatch hnone.symm.trans haccess

/-- Settles O49: the region table is all that a running core can be refused for. -/
theorem runningCoreAlwaysHasASuccessor : Obligations.RunningCoreAlwaysHasASuccessor := by
  unfold Obligations.RunningCoreAlwaysHasASuccessor
  intro s hs hr
  rw [step_running hs hr]
  exact fetchExecute_next s

/-- Settles O56: reset is released for the regions alone, and the first fetch is from ENTRY_POINT. -/
theorem badEntryPointFaultsAtTheFirstStep : Obligations.BadEntryPointFaultsAtTheFirstStep := by
  unfold Obligations.BadEntryPointFaultsAtTheFirstStep
  intro p s hboot
  obtain ⟨hw, rfl⟩ := bootState_eq_some.mp hboot
  refine ⟨fun e => ⟨_, bootState_eq_some.mpr ⟨hw, rfl⟩⟩, fun ha => ?_, fun ha hout => ?_⟩
  · exact step_resetWith_of_fetch_error hw (fetch_unaligned ha)
  · exact step_resetWith_of_fetch_error hw (fetch_outOfRange ha (inRange_map_segmentRegion_eq_false hout))

end Sys2Proof.Machine
end
